-- ==== Sys2Proof/Word.lean ====
section
/-! DEFINITION. The numbers of the machine (00_scope.md rule R7). The value of a cell, of `rb`, of an
argument, of an input and of an output is an integer, Lean's `Int` (R5, R43); an address and `pc` are
natural numbers, Lean's `Nat` (R5, R22, R40). No value has a bit width and no operation wraps, so both
types are used as they are, under no other name. -/

namespace Sys2Proof

/-- The unit of memory (R43): an address and the one integer it holds. The machine has no bytes (R47),
so a cell is not a `Host.Cell` (log entry 1). -/
abbrev Cell := Nat × Int

end Sys2Proof
end

