-- ==== Sys2Proof/Syntax.lean ====
section
/-! DEFINITION. The instructions of the machine as syntax: one constructor of `Instr` per row of
spec/opcode_table.json (30_encoding.md rules R64 to R66). -/

namespace Sys2Proof

/-- The three addressing modes (R66). -/
inductive Mode where
  | position
  | immediate
  | relative
  deriving DecidableEq, Repr

/-- An argument: "a literal paired with its mode" (R16, R66, R70). -/
structure Operand where
  mode    : Mode
  literal : Int
  deriving DecidableEq, Repr

/-- The ten opcodes (R64), by the names the spec's table gives them. -/
inductive Opcode where
  | add
  | mul
  | input
  | output
  | jumpIfTrue
  | jumpIfFalse
  | lessThan
  | equals
  | adjustRb
  | halt
  deriving DecidableEq, Repr

/-- An instruction with its arguments in the document's order (R64). -/
inductive Instr where
  /-- opcode 1 (R100): `dst ← a + b` -/
  | add (a b dst : Operand)
  /-- opcode 2 (R101): `dst ← a * b` -/
  | mul (a b dst : Operand)
  /-- opcode 3 (R121): `dst ← next consumed input value` -/
  | input (dst : Operand)
  /-- opcode 4 (R122): emit the value of `a` -/
  | output (a : Operand)
  /-- opcode 5 (R150): `pc ← target if cond ≠ 0` -/
  | jumpIfTrue (cond target : Operand)
  /-- opcode 6 (R151): `pc ← target if cond = 0` -/
  | jumpIfFalse (cond target : Operand)
  /-- opcode 7 (R170): `dst ← 1 if a < b else 0` -/
  | lessThan (a b dst : Operand)
  /-- opcode 8 (R171): `dst ← 1 if a = b else 0` -/
  | equals (a b dst : Operand)
  /-- opcode 9 (R190): `rb ← rb + a` -/
  | adjustRb (a : Operand)
  /-- opcode 99 (R191): the machine halts -/
  | halt
  deriving DecidableEq, Repr

/-- The opcode of an instruction. -/
def Instr.opcode : Instr → Opcode
  | .add _ _ _ => .add
  | .mul _ _ _ => .mul
  | .input _ => .input
  | .output _ => .output
  | .jumpIfTrue _ _ => .jumpIfTrue
  | .jumpIfFalse _ _ => .jumpIfFalse
  | .lessThan _ _ _ => .lessThan
  | .equals _ _ _ => .equals
  | .adjustRb _ => .adjustRb
  | .halt => .halt

/-- The arguments of an instruction, argument 1 first (R64). -/
def Instr.operands : Instr → List Operand
  | .add a b d => [a, b, d]
  | .mul a b d => [a, b, d]
  | .input d => [d]
  | .output a => [a]
  | .jumpIfTrue c t => [c, t]
  | .jumpIfFalse c t => [c, t]
  | .lessThan a b d => [a, b, d]
  | .equals a b d => [a, b, d]
  | .adjustRb a => [a]
  | .halt => []

end Sys2Proof
end

