-- ==== Sys2Proof/WellFormed.lean ====
section
/-! DEFINITION. Which instruction terms the machine has a word for (30_encoding.md rules R65, R69):
a write argument is never in immediate mode. A literal may be any integer (R70), so nothing else is
checked. -/

namespace Sys2Proof

/-- The write argument of an instruction and its position, as `wpos` of R65 gives it: argument 3 of
opcodes 1, 2, 7 and 8, argument 1 of opcode 3, none otherwise. -/
def Instr.writeOperand? : Instr → Option (Nat × Operand)
  | .add _ _ d => some (3, d)
  | .mul _ _ d => some (3, d)
  | .input d => some (1, d)
  | .output _ => none
  | .jumpIfTrue _ _ => none
  | .jumpIfFalse _ _ => none
  | .lessThan _ _ d => some (3, d)
  | .equals _ _ d => some (3, d)
  | .adjustRb _ => none
  | .halt => none

/-- An operand that may stand as a write argument: mode 0 or 2 (R69). -/
def Operand.mayBeWritten (o : Operand) : Bool :=
  decide (o.mode ≠ .immediate)

/-- The well-formed instructions: those whose write argument, if any, is in mode 0 or 2 (R69). -/
def Instr.wf (i : Instr) : Bool :=
  match i.writeOperand? with
  | none => true
  | some (_, d) => d.mayBeWritten

end Sys2Proof
end

