-- ==== Sys2Proof/Decode.lean ====
section
/-! DEFINITION. The decoder (30_encoding.md rules R61 to R70, R78, R80, R81) and, after it, the
encoder (R79). The encoding is decimal: fields are decimal digits of the word. -/

namespace Sys2Proof

/-- `digit(w, j)` of R9: the j-th decimal digit of `w`, the units digit being digit 0. -/
def digit (w j : Nat) : Nat := w / 10 ^ j % 10

/-- The mode a mode digit names (R66); none for the digits 3 to 9 (R67). -/
def Mode.ofDigit? : Nat → Option Mode
  | 0 => some .position
  | 1 => some .immediate
  | 2 => some .relative
  | _ => none

/-- The digit of a mode (R66). -/
def Mode.toDigit : Mode → Nat
  | .position => 0
  | .immediate => 1
  | .relative => 2

/-- The opcode map (R64): the ten defined values of `w mod 100`. -/
def Opcode.ofNumber? : Nat → Option Opcode
  | 1 => some .add
  | 2 => some .mul
  | 3 => some .input
  | 4 => some .output
  | 5 => some .jumpIfTrue
  | 6 => some .jumpIfFalse
  | 7 => some .lessThan
  | 8 => some .equals
  | 9 => some .adjustRb
  | 99 => some .halt
  | _ => none

/-- The number of an opcode (R64). -/
def Opcode.number : Opcode → Nat
  | .add => 1
  | .mul => 2
  | .input => 3
  | .output => 4
  | .jumpIfTrue => 5
  | .jumpIfFalse => 6
  | .lessThan => 7
  | .equals => 8
  | .adjustRb => 9
  | .halt => 99

/-- The number of arguments of an opcode (R64, R65). -/
def Opcode.arity : Opcode → Nat
  | .add => 3
  | .mul => 3
  | .input => 1
  | .output => 1
  | .jumpIfTrue => 2
  | .jumpIfFalse => 2
  | .lessThan => 3
  | .equals => 3
  | .adjustRb => 1
  | .halt => 0

/-- The position of the write argument of an opcode, if it has one (R65). -/
def Opcode.writePosition? : Opcode → Option Nat
  | .add => some 3
  | .mul => some 3
  | .input => some 1
  | .output => none
  | .jumpIfTrue => none
  | .jumpIfFalse => none
  | .lessThan => some 3
  | .equals => some 3
  | .adjustRb => none
  | .halt => none

/-- The length of an instruction in cells, known from its opcode alone (R65, R78). -/
def Opcode.length (op : Opcode) : Nat := 1 + op.arity

/-- Why the decoder rejects a word (R81), one name per row of that table. -/
inductive DecodeError where
  /-- the word is negative (R62) -/
  | negativeWord
  /-- `w mod 100` is none of the ten opcodes (R64) -/
  | unknownOpcode
  /-- the mode digit of argument `k` is 3 to 9 (R67) -/
  | badMode (k : Nat)
  /-- the write argument, at position `k`, is in immediate mode (R69) -/
  | invalidWriteTarget (k : Nat)
  deriving DecidableEq, Repr

/-- The modes of `count` arguments from argument `k` on, or the first of these arguments with a bad
mode digit (the loop of R63). Argument `k` has the decimal digit `k + 1` (R61). -/
def decodeModes (w : Nat) : (k count : Nat) → Except Nat (List Mode)
  | _, 0 => .ok []
  | k, count + 1 =>
    match Mode.ofDigit? (digit w (k + 1)) with
    | none => .error k
    | some m =>
      match decodeModes w (k + 1) count with
      | .error j => .error j
      | .ok ms => .ok (m :: ms)

/-- The check of R69: the write argument of `op`, if any, is not in immediate mode. -/
def checkWriteMode (op : Opcode) (modes : List Mode) : Except DecodeError (Opcode × List Mode) :=
  match op.writePosition? with
  | none => .ok (op, modes)
  | some k =>
    if modes[k - 1]? = some .immediate then .error (.invalidWriteTarget k) else .ok (op, modes)

/-- `Decode(w)` of R63: the opcode and the modes of its arguments, or the first check that fails. -/
def decodeWord (w : Int) : Except DecodeError (Opcode × List Mode) :=
  if w < 0 then .error .negativeWord
  else
    match Opcode.ofNumber? (w.toNat % 100) with
    | none => .error .unknownOpcode
    | some op =>
      match decodeModes w.toNat 1 op.arity with
      | .error k => .error (.badMode k)
      | .ok modes => checkWriteMode op modes

/-- Argument `k` of an instruction: its mode with the literal of the cell `pc + k` (R60, R70). -/
def argument (modes : List Mode) (lit : Nat → Int) (k : Nat) : Operand :=
  { mode := modes.getD (k - 1) .position, literal := lit k }

/-- The instruction of an opcode, its modes and its literals (R60, R64). -/
def assemble (op : Opcode) (modes : List Mode) (lit : Nat → Int) : Instr :=
  let arg := argument modes lit
  match op with
  | .add => .add (arg 1) (arg 2) (arg 3)
  | .mul => .mul (arg 1) (arg 2) (arg 3)
  | .input => .input (arg 1)
  | .output => .output (arg 1)
  | .jumpIfTrue => .jumpIfTrue (arg 1) (arg 2)
  | .jumpIfFalse => .jumpIfFalse (arg 1) (arg 2)
  | .lessThan => .lessThan (arg 1) (arg 2) (arg 3)
  | .equals => .equals (arg 1) (arg 2) (arg 3)
  | .adjustRb => .adjustRb (arg 1)
  | .halt => .halt

/-- The instruction whose word is `w` and whose literal `k` is `lit k`; only the literals of the
opcode's own arguments are looked at (R60, R70). Total; a word that does not decode is rejected by
name (R81). -/
def decode (w : Int) (lit : Nat → Int) : Except DecodeError Instr :=
  match decodeWord w with
  | .error e => .error e
  | .ok (op, modes) => .ok (assemble op modes lit)

/-- `decode` on a sequence of cells, the first being the word. A cell past the end of the sequence
reads as 0, as unwritten memory does (R40, R70). -/
def decodeCells (cells : List Int) : Except DecodeError Instr :=
  decode (cells.getD 0 0) (fun k => cells.getD k 0)

/-- The mode digits of a list of arguments as one number, argument 1 in its units digit (R61). -/
def modeDigits : List Operand → Nat
  | [] => 0
  | o :: os => o.mode.toDigit + 10 * modeDigits os

/-- The canonical word of an instruction (R79): `op + 100*m1 + 1000*m2 + 10000*m3`. -/
def Instr.word (i : Instr) : Nat := i.opcode.number + 100 * modeDigits i.operands

/-- The cells of an instruction: its canonical word, then one literal per argument (R60, R79). -/
def encode (i : Instr) : List Int := (i.word : Int) :: i.operands.map Operand.literal

/-- The instruction the decoder reads from an instruction word whose binary numeral is `w`, all its
literal cells holding 0. The machine has no bits (R7): the number the table's bits spell is taken as
the value of the one cell that holds the word, so `nbits` plays no part (log entry 7). -/
def decodeTableWord (_nbits w : Nat) : Option Instr :=
  match decode (w : Int) (fun _ => 0) with
  | .ok i => some i
  | .error _ => none

end Sys2Proof
end

