-- ==== Sys2Proof/Config.lean ====
section
/-! DEFINITION. The configuration of a machine: what an implementation fixes and no step changes
(00_scope.md rules R5, R6). -/

namespace Sys2Proof

/-- `OUT_CAP` is the only parameter the spec leaves open (R6): the capacity of the output channel,
`none` for an unbounded one. -/
structure Config where
  outCap : Option Nat
  deriving DecidableEq, Repr

/-- The default the spec takes for `OUT_CAP` (R5): unbounded, so that output never suspends (R131). -/
def Config.default : Config := { outCap := none }

end Sys2Proof
end

