-- ==== Sys2Proof/Machine/State.lean ====
section
/-! DEFINITION. The state of one machine as plain data (10_state.md rules R20 to R33), the fault
record and the run outcomes (60_exceptions.md rules R210 to R212), and the state after reset
(70_reset_and_hazards.md rule R251). -/

namespace Sys2Proof.Machine

/-- The memory `ℕ → ℤ` (R40) as a finite list of the cells that do not hold 0, in one canonical
form (`Memory.wf`); an unlisted address reads as 0 (R45). -/
abbrev Memory := List Cell

/-- The fault kinds (R211). -/
inductive FaultKind where
  | decodeFault
  | invalidWriteTarget
  /-- named by the document, raised by no instruction (R216) -/
  | immediateAddressFault
  | addressFault
  deriving DecidableEq, Repr

/-- The codes the spec assigns to the fault kinds (R211). -/
def FaultKind.code : FaultKind → Nat
  | .decodeFault => 1
  | .invalidWriteTarget => 2
  | .immediateAddressFault => 3
  | .addressFault => 4

/-- The reason of a DecodeFault (R212, R213). -/
inductive DecodeReason where
  | negativeWord
  | unknownOpcode
  | badMode (k : Nat)
  deriving DecidableEq, Repr

/-- What a fault records (R212). -/
structure FaultRecord where
  kind   : FaultKind
  /-- the address of the faulting instruction's word -/
  pc     : Nat
  /-- the value fetched there -/
  word   : Int
  /-- the position of the argument at fault, if one is -/
  arg    : Option Nat
  /-- the negative effective address or jump target of an AddressFault -/
  addr   : Option Int
  /-- the reason of a DecodeFault -/
  reason : Option DecodeReason
  deriving DecidableEq, Repr

/-- The run state (R27). The document's `halted` is `status = Halted`. -/
inductive Status where
  | running
  | halted
  | faulted (f : FaultRecord)
  deriving DecidableEq, Repr

/-- Why a step suspends (R211, R219, R220). -/
inductive SuspendReason where
  | inputStarvation
  | outputBackpressure
  deriving DecidableEq, Repr

/-- The codes the spec assigns to the suspension reasons, an enumeration of their own (R211). -/
def SuspendReason.code : SuspendReason → Nat
  | .inputStarvation => 1
  | .outputBackpressure => 2

/-- What `run` returns (R210). -/
inductive RunOutcome where
  | halted
  | faulted (kind : FaultKind)
  | suspended (reason : SuspendReason)
  deriving DecidableEq, Repr

/-- The complete state of one machine (R21), and the configuration, which no step and no host
operation changes (R6; log entry 2). -/
structure State where
  /-- memory, shared by code and data (R40, R46) -/
  mem    : Memory
  /-- the address of the instruction word (R22) -/
  pc     : Nat
  /-- the relative base, signed (R26) -/
  rb     : Int
  /-- Running, Halted or Faulted (R27) -/
  status : Status
  /-- input values offered and not yet consumed, oldest first (R29) -/
  inq    : List Int
  /-- values emitted and not yet taken by the host, oldest first (R30) -/
  outq   : List Int
  /-- `OUT_CAP` (R6) -/
  config : Config
  deriving DecidableEq, Repr

/-- The host's fault outcome of a step. This machine has none: a fault of the spec leaves a state,
`status = Faulted(f)`, that the host goes on to inspect (R214, R225), so it is a next state
(log entry 3). -/
inductive Fault where
  deriving DecidableEq, Repr

/-- Why an operation is refused. No step of the machine is ever refused. -/
inductive Refusal where
  /-- an instruction that has no meaning in this model, by its mnemonic: none is left; raised by no
  arm of `exec` (safe) -/
  | notModelled (mnemonic : String)
  /-- the host's `peek` or `poke` at a negative address, refused with no state change (R59; safe) -/
  | negativeHostAddress (a : Int)
  deriving DecidableEq, Repr

/-- The machine right after construction from the empty image with no input offered (R250, R251,
R253): every cell 0, `pc = 0`, `rb = 0`, Running, both queues empty, `OUT_CAP` at its default (log entries 7 and 12).
A machine built from an image is `State.new` (Machine/HostOps.lean). -/
def State.reset : State :=
  { mem := [], pc := 0, rb := 0, status := .running, inq := [], outq := [],
    config := Config.default }

end Sys2Proof.Machine
end

