-- ==== Sys2Proof/Machine/Ops.lean ====
section
/-! DEFINITION. The named operations over memory and registers (20_memory.md rules R40 to R45;
10_state.md), the ways a step can end (30_encoding.md rule R75), fetching an instruction, and taking
a fault (60_exceptions.md rules R212, R214). -/

namespace Sys2Proof.Machine

/-! ### Memory -/

/-- The addresses of a list of cells rise strictly and every one lies above `lo`, if there is one. -/
def Memory.risesAbove : Option Nat → Memory → Bool
  | _, [] => true
  | lo, (a, _) :: m => (match lo with | none => true | some b => decide (b < a)) && Memory.risesAbove (some a) m

/-- The canonical form: addresses strictly rising, and no listed cell holds 0, which is what an
unlisted address reads as (R45). -/
def Memory.wf (m : Memory) : Bool :=
  Memory.risesAbove none m && m.all (fun c => decide (c.2 ≠ 0))

/-- `MemRead(a, 1)` (R41): the integer held by cell `a`; 0 for a cell never written (R40). -/
def Memory.read : Memory → Nat → Int
  | [], _ => 0
  | (b, x) :: m, a => if b = a then x else Memory.read m a

/-- The cells other than cell `a`. -/
def Memory.erase : Memory → Nat → Memory
  | [], _ => []
  | (b, x) :: m, a => if b = a then Memory.erase m a else (b, x) :: Memory.erase m a

/-- A cell put before the first cell of a higher address. -/
def Memory.insert : Memory → Nat → Int → Memory
  | [], a, v => [(a, v)]
  | (b, x) :: m, a, v => if b < a then (b, x) :: Memory.insert m a v else (a, v) :: (b, x) :: m

/-- `MemWrite(a, 1, v)` (R42): cell `a` holds `v` from now on. Writing 0 leaves no entry, so that
equal memories are equal lists. -/
def Memory.write (m : Memory) (a : Nat) (v : Int) : Memory :=
  if v = 0 then m.erase a else (m.erase a).insert a v

/-- The cells from address `a` on set to the values of a list, as an image is loaded (R250). -/
def Memory.load (m : Memory) : Nat → List Int → Memory
  | _, [] => m
  | a, v :: vs => (m.write a v).load (a + 1) vs

/-! ### Updates of the state -/

/-- `MemWrite` on the machine's memory (R42). -/
def State.writeMem (s : State) (a : Nat) (v : Int) : State := { s with mem := s.mem.write a v }

/-- `pc <- target` (R10). -/
def State.setPc (s : State) (target : Nat) : State := { s with pc := target }

/-- The fixed advance of `pc` by the instruction's length, in ℕ, without wrap-around (R23, R24). -/
def State.advance (s : State) (length : Nat) : State := { s with pc := s.pc + length }

/-- `rb <- rb + v`, exact in ℤ (R190). -/
def State.addRb (s : State) (v : Int) : State := { s with rb := s.rb + v }

/-- `inq <- q` (R121). -/
def State.setInq (s : State) (q : List Int) : State := { s with inq := q }

/-- `outq <- outq ++ [v]`, the document's `emitOutput(v)` (R120, R122). -/
def State.emit (s : State) (v : Int) : State := { s with outq := s.outq ++ [v] }

/-- `status <- Halted` (R191). -/
def State.stop (s : State) : State := { s with status := .halted }

/-- Taking a fault (R214), the one shared operation: nothing of the instruction is committed and
`status <- Faulted(f)`. There is no handler, vector or saved register to write (R223), and no
operation that returns from a fault (R224): the only way on is a new machine (R250). -/
def State.takeFault (s : State) (f : FaultRecord) : State := { s with status := .faulted f }

/-! ### Fault records -/

/-- The word at `pc`, which a fault record keeps (R212; log entry 8). -/
def State.currentWord (s : State) : Int := s.mem.read s.pc

/-- The record of a DecodeFault (R212, R213). `BadMode(k)` is also the argument at fault. -/
def State.decodeFault (s : State) (r : DecodeReason) : FaultRecord :=
  { kind := .decodeFault, pc := s.pc, word := s.currentWord,
    arg := (match r with | .badMode k => some k | .negativeWord => none | .unknownOpcode => none),
    addr := none, reason := some r }

/-- The record of an InvalidWriteTarget at argument `k` (R69, R212). -/
def State.invalidWriteTarget (s : State) (k : Nat) : FaultRecord :=
  { kind := .invalidWriteTarget, pc := s.pc, word := s.currentWord, arg := some k, addr := none,
    reason := none }

/-- The record of an AddressFault at argument `k` with the negative address or target `a`
(R74, R152, R212). -/
def State.addressFault (s : State) (k : Nat) (a : Int) : FaultRecord :=
  { kind := .addressFault, pc := s.pc, word := s.currentWord, arg := some k, addr := some a,
    reason := none }

/-- The record of the fault the decoder raises for the word at `pc` (R63). -/
def State.decodeErrorFault (s : State) : DecodeError → FaultRecord
  | .negativeWord => s.decodeFault .negativeWord
  | .unknownOpcode => s.decodeFault .unknownOpcode
  | .badMode k => s.decodeFault (.badMode k)
  | .invalidWriteTarget k => s.invalidWriteTarget k

/-! ### Fetch, and the end of a step -/

/-- The first two lines of the cycle of R75: the word at `pc` is fetched and decoded, and its
literals are the cells after it (R60, R70), all from memory as it stands (R55). -/
def State.fetch (s : State) : Except FaultRecord Instr :=
  match decode (s.mem.read s.pc) (fun k => s.mem.read (s.pc + k)) with
  | .ok i => .ok i
  | .error e => .error (s.decodeErrorFault e)

/-- How the execution of an instruction ends (R75): it completes, it raises a fault, or it
suspends. -/
inductive StepResult where
  | completed (t : State)
  | faulted (f : FaultRecord)
  | suspended (r : SuspendReason)
  deriving DecidableEq, Repr

/-- The state a step leaves. A fault leaves `status = Faulted(f)` and nothing else (R214); a
suspension leaves every piece of state as it was, to be attempted again (R218, R130). -/
def StepResult.after (s : State) : StepResult → State
  | .completed t => t
  | .faulted f => s.takeFault f
  | .suspended _ => s

/-- The outcome of a step as the host sees it (log entries 3 and 4). -/
def StepResult.outcome (s : State) (r : StepResult) : Host.Outcome State Fault Refusal :=
  .next (r.after s)

end Sys2Proof.Machine
end

