-- ==== Sys2Proof/Machine/Operands.lean ====
section
/-! DEFINITION. The argument resolver (30_encoding.md rules R66, R69 to R74): every operand form,
and the order in which the arguments of one instruction are resolved (R75, R221). -/

namespace Sys2Proof.Machine

/-- The effective address of an argument (R71): its literal in mode 0, the literal plus `rb` in
mode 2, computed in ℤ; none in mode 1. -/
def effectiveAddress (o : Operand) (rb : Int) : Option Int :=
  match o.mode with
  | .position => some o.literal
  | .immediate => none
  | .relative => some (o.literal + rb)

/-- The value of the read argument `k` (`resolveValue`, R72), or the AddressFault of a negative
effective address, before any access there (R74). -/
def readArg (s : State) (k : Nat) (o : Operand) : Except FaultRecord Int :=
  match effectiveAddress o s.rb with
  | none => .ok o.literal
  | some ea => if ea < 0 then .error (s.addressFault k ea) else .ok (s.mem.read ea.toNat)

/-- The address of the write argument `k` (`resolveAddress`, R73), or the fault of an immediate
write target (R69) or of a negative effective address (R74). Its cell is not read (R77). -/
def writeArg (s : State) (k : Nat) (o : Operand) : Except FaultRecord Nat :=
  match effectiveAddress o s.rb with
  | none => .error (s.invalidWriteTarget k)
  | some ea => if ea < 0 then .error (s.addressFault k ea) else .ok ea.toNat

/-- The arguments of a jump: two values, argument 1 first (R75, R221). -/
def resolveTwo (s : State) (a b : Operand) : Except FaultRecord (Int × Int) :=
  match readArg s 1 a with
  | .error f => .error f
  | .ok v1 =>
    match readArg s 2 b with
    | .error f => .error f
    | .ok v2 => .ok (v1, v2)

/-- The arguments of opcodes 1, 2, 7 and 8: two values and the address of the write argument.
An immediate write target is found before any address is looked at, then the arguments are resolved
in order (R69, R75, R221). -/
def resolveThree (s : State) (a b dst : Operand) : Except FaultRecord (Int × Int × Nat) :=
  if dst.mayBeWritten then
    match resolveTwo s a b with
    | .error f => .error f
    | .ok (v1, v2) =>
      match writeArg s 3 dst with
      | .error f => .error f
      | .ok a3 => .ok (v1, v2, a3)
  else .error (s.invalidWriteTarget 3)

/-- The shape of opcodes 1, 2, 7 and 8 (R100, R101, R170, R171): `MemWrite(a3, 1, f v1 v2)`, then
`pc <- pc + 4`, all reads before the write (R55). -/
def storeResult (f : Int → Int → Int) (a b dst : Operand) (s : State) : StepResult :=
  match resolveThree s a b dst with
  | .error fault => .faulted fault
  | .ok (v1, v2, a3) => .completed ((s.writeMem a3 (f v1 v2)).advance 4)

end Sys2Proof.Machine
end

