-- ==== Sys2Proof/Machine/Arithmetic.lean ====
section
/-! DEFINITION. The arithmetic instructions add and mul (40_arithmetic.md rules R100 to R102). -/

namespace Sys2Proof.Machine

/-- How an add ends (R100): `MemWrite(a3, 1, v1 + v2)`, exact (R102). -/
def addResult (a b dst : Operand) (s : State) : StepResult :=
  storeResult (fun v1 v2 => v1 + v2) a b dst s

/-- How a mul ends (R101): `MemWrite(a3, 1, v1 * v2)`, exact (R102). -/
def mulResult (a b dst : Operand) (s : State) : StepResult :=
  storeResult (fun v1 v2 => v1 * v2) a b dst s

/-- add, opcode 1 (R100). -/
def execAdd (a b dst : Operand) (s : State) : Host.Outcome State Fault Refusal :=
  (addResult a b dst s).outcome s

/-- mul, opcode 2 (R101). -/
def execMul (a b dst : Operand) (s : State) : Host.Outcome State Fault Refusal :=
  (mulResult a b dst s).outcome s

end Sys2Proof.Machine
end

