-- ==== Sys2Proof/Machine/Flags.lean ====
section
/-! DEFINITION. There are no flags, condition codes or predicate registers (10_state.md rule R31).
What stands in their place: the 1 or 0 a comparison writes into memory (43_compare.md) and the test
for zero of a jump (42_jumps.md). -/

namespace Sys2Proof.Machine

/-- The value a comparison writes: exactly 1 or 0 (R172). -/
def truthValue (b : Bool) : Int := if b then 1 else 0

/-- `(v1 < v2) ? 1 : 0`, on signed integers of unbounded magnitude (R170). -/
def lessThanValue (v1 v2 : Int) : Int := truthValue (decide (v1 < v2))

/-- `(v1 = v2) ? 1 : 0` (R171). -/
def equalsValue (v1 v2 : Int) : Int := truthValue (decide (v1 = v2))

/-- The condition of jump-if-true: any value but 0 (R150). -/
def condNonZero (v : Int) : Bool := decide (v ≠ 0)

/-- The condition of jump-if-false: exactly the value 0 (R151). -/
def condZero (v : Int) : Bool := decide (v = 0)

end Sys2Proof.Machine
end

