-- ==== Sys2Proof/Machine/Compare.lean ====
section
/-! DEFINITION. The comparison instructions less-than and equals (43_compare.md rules R170 to
R172). -/

namespace Sys2Proof.Machine

/-- How a less-than ends (R170): `MemWrite(a3, 1, (v1 < v2) ? 1 : 0)`. -/
def lessThanResult (a b dst : Operand) (s : State) : StepResult :=
  storeResult lessThanValue a b dst s

/-- How an equals ends (R171): `MemWrite(a3, 1, (v1 = v2) ? 1 : 0)`. -/
def equalsResult (a b dst : Operand) (s : State) : StepResult :=
  storeResult equalsValue a b dst s

/-- less-than, opcode 7 (R170). -/
def execLessThan (a b dst : Operand) (s : State) : Host.Outcome State Fault Refusal :=
  (lessThanResult a b dst s).outcome s

/-- equals, opcode 8 (R171). -/
def execEquals (a b dst : Operand) (s : State) : Host.Outcome State Fault Refusal :=
  (equalsResult a b dst s).outcome s

end Sys2Proof.Machine
end

