-- ==== Sys2Proof/Machine/Io.lean ====
section
/-! DEFINITION. The I/O instructions input and output (41_io.md rules R120 to R131). -/

namespace Sys2Proof.Machine

/-- The output channel holds `OUT_CAP` values or more; never so when `OUT_CAP = none` (R131). -/
def State.outputFull (s : State) : Bool :=
  match s.config.outCap with
  | none => false
  | some c => decide (c ≤ s.outq.length)

/-- How an input ends (R121). Every fault is raised before `inq` is examined (R221); an empty `inq`
suspends, and no value is ever invented (R128). -/
def inputResult (dst : Operand) (s : State) : StepResult :=
  match writeArg s 1 dst with
  | .error f => .faulted f
  | .ok a1 =>
    match s.inq with
    | [] => .suspended .inputStarvation
    | v :: rest => .completed (((s.writeMem a1 v).setInq rest).advance 2)

/-- How an output ends (R122): `outq <- outq ++ [v1]`, unless the channel is full (R131). -/
def outputResult (a : Operand) (s : State) : StepResult :=
  match readArg s 1 a with
  | .error f => .faulted f
  | .ok v1 =>
    if s.outputFull then .suspended .outputBackpressure
    else .completed ((s.emit v1).advance 2)

/-- input, opcode 3 (R121). -/
def execInput (dst : Operand) (s : State) : Host.Outcome State Fault Refusal :=
  (inputResult dst s).outcome s

/-- output, opcode 4 (R122). -/
def execOutput (a : Operand) (s : State) : Host.Outcome State Fault Refusal :=
  (outputResult a s).outcome s

end Sys2Proof.Machine
end

