-- ==== Sys2Proof/Machine/Jumps.lean ====
section
/-! DEFINITION. The control transfers jump-if-true and jump-if-false (42_jumps.md rules R150 to
R153). -/

namespace Sys2Proof.Machine

/-- The shape of both jumps. A taken jump to a negative target raises AddressFault at argument 2 and
leaves `pc`; one that is not taken never faults on its target's value (R152). -/
def jumpResult (taken : Int → Bool) (cond target : Operand) (s : State) : StepResult :=
  match resolveTwo s cond target with
  | .error f => .faulted f
  | .ok (v1, v2) =>
    if taken v1 then
      if v2 < 0 then .faulted (s.addressFault 2 v2) else .completed (s.setPc v2.toNat)
    else .completed (s.advance 3)

/-- How a jump-if-true ends (R150). -/
def jumpIfTrueResult (cond target : Operand) (s : State) : StepResult :=
  jumpResult condNonZero cond target s

/-- How a jump-if-false ends (R151). -/
def jumpIfFalseResult (cond target : Operand) (s : State) : StepResult :=
  jumpResult condZero cond target s

/-- jump-if-true, opcode 5 (R150). -/
def execJumpIfTrue (cond target : Operand) (s : State) : Host.Outcome State Fault Refusal :=
  (jumpIfTrueResult cond target s).outcome s

/-- jump-if-false, opcode 6 (R151). -/
def execJumpIfFalse (cond target : Operand) (s : State) : Host.Outcome State Fault Refusal :=
  (jumpIfFalseResult cond target s).outcome s

end Sys2Proof.Machine
end

