-- ==== Sys2Proof/Machine/RbHalt.lean ====
section
/-! DEFINITION. The instructions adjust-rb and halt (44_rb_halt.md rules R190 to R192). -/

namespace Sys2Proof.Machine

/-- How an adjust-rb ends (R190): `rb <- rb + v1`; a mode-2 operand is resolved with the old `rb`. -/
def adjustRbResult (a : Operand) (s : State) : StepResult :=
  match readArg s 1 a with
  | .error f => .faulted f
  | .ok v1 => .completed ((s.addRb v1).advance 2)

/-- How a halt ends (R191): `status <- Halted`, everything else unchanged, `pc` included. -/
def haltResult (s : State) : StepResult := .completed s.stop

/-- adjust-rb, opcode 9 (R190). -/
def execAdjustRb (a : Operand) (s : State) : Host.Outcome State Fault Refusal :=
  (adjustRbResult a s).outcome s

/-- halt, opcode 99 (R191). -/
def execHalt (s : State) : Host.Outcome State Fault Refusal :=
  (haltResult s).outcome s

end Sys2Proof.Machine
end

