-- ==== Sys2Proof/Machine/Step.lean ====
section
/-! DEFINITION. One step of the machine (30_encoding.md rule R75) and the placing of an instruction
word where the next step fetches it. -/

namespace Sys2Proof.Machine

/-- One step. A Running machine fetches and decodes the word at `pc` and executes the instruction,
or takes the fault the decoder raises (R63, R75). A Halted or Faulted machine executes nothing and
never changes again (R28, R225): its step answers the same state (log entry 5). -/
def step (s : State) : Host.Outcome State Fault Refusal :=
  match s.status with
  | .running =>
    match s.fetch with
    | .ok i => exec i s
    | .error f => .next (s.takeFault f)
  | .halted => .next s
  | .faulted _ => .next s

/-- The state in which the next step fetches and runs the instruction whose word is the number `w`
and whose literals are 0: the cells `pc .. pc+3`, the longest instruction (R60), hold `w` and zeros,
and the machine is Running, which a step requires (R75; log entry 7). -/
def State.withFetchWord (s : State) (_nbits w : Nat) : State :=
  { s with mem := s.mem.load s.pc [(w : Int), 0, 0, 0], status := .running }

end Sys2Proof.Machine
end

