-- ==== Sys2Proof/Machine/ImageText.lean ====
section
/-! DEFINITION. The text format of a program image (70_reset_and_hazards.md rule R257). The parser
stands outside the block (00_scope.md rule R4); it is given here beside the machine because the format
is an interface of it (log entry 16). -/

namespace Sys2Proof.Machine

/-- A text as its characters. -/
abbrev Text := List Char

/-- The value of a decimal digit. -/
def decimalDigit? (c : Char) : Option Nat :=
  if '0' ≤ c ∧ c ≤ '9' then some (c.toNat - '0'.toNat) else none

/-- The number that `value` followed by these digits spells. -/
def digitsFrom : Nat → Text → Option Nat
  | value, [] => some value
  | value, c :: cs =>
    match decimalDigit? c with
    | none => none
    | some d => digitsFrom (10 * value + d) cs

/-- `digit+`: one digit or more, leading zeros allowed. -/
def natural? : Text → Option Nat
  | [] => none
  | c :: cs => digitsFrom 0 (c :: cs)

/-- `int ::= "-"? digit+`. -/
def integer? : Text → Option Int
  | [] => none
  | c :: cs =>
    if c = '-' then (natural? cs).map (fun n => -(n : Int)) else (natural? (c :: cs)).map Int.ofNat

/-- The pieces of a text between the occurrences of a separator. -/
def splitAt (separator : Char) : Text → List Text
  | [] => [[]]
  | c :: cs =>
    if c = separator then [] :: splitAt separator cs
    else
      match splitAt separator cs with
      | [] => [[c]]
      | piece :: rest => (c :: piece) :: rest

/-- `ws`: a space or a tab. -/
def isBlank (c : Char) : Bool := decide (c = ' ') || decide (c = '\t')

/-- A text without the blanks around it. -/
def trimBlanks (cs : Text) : Text :=
  ((cs.dropWhile isBlank).reverse.dropWhile isBlank).reverse

/-- A text without one `eol` at its end, if it has one. -/
def dropEol (cs : Text) : Text :=
  match cs.reverse with
  | '\n' :: '\r' :: rest => rest.reverse
  | '\n' :: rest => rest.reverse
  | _ => cs

/-- The values of a list, if all of them exist. -/
def allOf {α : Type} : List (Option α) → Option (List α)
  | [] => some []
  | x :: xs =>
    match x, allOf xs with
    | some a, some as => some (a :: as)
    | some _, none => none
    | none, _ => none

/-- `image ::= ws int ws ( "," ws int ws )* eol?`: the integers of a program image line, none for a
line that does not match (R257). -/
def imageOfText? (line : Text) : Option (List Int) :=
  allOf ((splitAt ',' (dropEol line)).map (fun field => integer? (trimBlanks field)))

end Sys2Proof.Machine
end

