-- ==== Sys2Proof/Machine/Assembly.lean ====
section
/-! DEFINITION. The assembler syntax and the pseudo-instructions (30_encoding.md rules R83, R84): a
notation of the spec's own, on which no rule of the machine depends. -/

namespace Sys2Proof

/-- The immediate operand `#n`. -/
def Operand.imm (n : Int) : Operand := { mode := .immediate, literal := n }

/-- `mov src, dst` expands to `add src, #0, dst` (R84). -/
def Instr.mov (src dst : Operand) : Instr := .add src (.imm 0) dst

/-- `jmp target` expands to `jump-if-true #1, target` (R84). -/
def Instr.jmp (target : Operand) : Instr := .jumpIfTrue (.imm 1) target

/-- `nop` expands to `jump-if-true #0, #0` (R84). -/
def Instr.nop : Instr := .jumpIfTrue (.imm 0) (.imm 0)

namespace Machine

/-- What stands for `n` in an operand: a decimal integer, a label, or `label+k` (R83). -/
inductive AsmValue where
  | number (n : Int)
  | label (name : Text) (offset : Nat)
  deriving DecidableEq, Repr

/-- An operand as written: `[n]`, `#n`, `[rb+n]` or `[rb-n]` (R83). -/
inductive AsmOperand where
  | position (n : AsmValue)
  | immediate (n : AsmValue)
  | relativePlus (n : AsmValue)
  | relativeMinus (n : AsmValue)
  deriving DecidableEq, Repr

/-- A mnemonic: an opcode's name, its short form, or a pseudo-instruction (R83, R84). -/
inductive AsmName where
  | opcode (op : Opcode)
  | mov
  | jmp
  | nop
  deriving DecidableEq, Repr

/-- What one line holds after its label, if anything (R83). -/
inductive AsmStatement where
  | instruction (name : AsmName) (operands : List AsmOperand)
  | data (values : List Int)
  deriving DecidableEq, Repr

/-- One line: an optional label, then a statement (R83). -/
structure AsmLine where
  label     : Option Text
  statement : AsmStatement
  deriving DecidableEq, Repr

/-- The mnemonics and their short forms (R83), and the pseudo-instructions (R84). -/
def asmNames : List (Text × AsmName) :=
  [(['a', 'd', 'd'], .opcode .add), (['m', 'u', 'l'], .opcode .mul),
   (['i', 'n', 'p', 'u', 't'], .opcode .input), (['i', 'n'], .opcode .input),
   (['o', 'u', 't', 'p', 'u', 't'], .opcode .output), (['o', 'u', 't'], .opcode .output),
   (['j', 'u', 'm', 'p', '-', 'i', 'f', '-', 't', 'r', 'u', 'e'], .opcode .jumpIfTrue),
   (['j', 't'], .opcode .jumpIfTrue)] ++
  [(['j', 'u', 'm', 'p', '-', 'i', 'f', '-', 'f', 'a', 'l', 's', 'e'], .opcode .jumpIfFalse),
   (['j', 'f'], .opcode .jumpIfFalse),
   (['l', 'e', 's', 's', '-', 't', 'h', 'a', 'n'], .opcode .lessThan), (['l', 't'], .opcode .lessThan),
   (['e', 'q', 'u', 'a', 'l', 's'], .opcode .equals), (['e', 'q'], .opcode .equals),
   (['a', 'd', 'j', 'u', 's', 't', '-', 'r', 'b'], .opcode .adjustRb),
   (['a', 'r', 'b'], .opcode .adjustRb), (['h', 'a', 'l', 't'], .opcode .halt)] ++
  [(['m', 'o', 'v'], .mov), (['j', 'm', 'p'], .jmp), (['n', 'o', 'p'], .nop)]

/-! ### From a structured program to its image -/

/-- The number of cells of a statement (R65, R83, R84). -/
def AsmStatement.size : AsmStatement → Nat
  | .instruction (.opcode op) _ => op.length
  | .instruction .mov _ => 4
  | .instruction .jmp _ => 3
  | .instruction .nop _ => 3
  | .data values => values.length

/-- The labels of a program whose first word stands at an address, each with the address of its
line's first cell: the word of an instruction (R83), or the first cell of a `.data` line, before which
R83 does not speak of a label (DESIGN CHOICE, log entry 15). Of two lines with one label the first is
meant (log entry 15). -/
def labelsFrom : Nat → List AsmLine → List (Text × Nat)
  | _, [] => []
  | at_, line :: rest =>
    match line.label with
    | none => labelsFrom (at_ + line.statement.size) rest
    | some name => (name, at_) :: labelsFrom (at_ + line.statement.size) rest

/-- The integer a value stands for; none for a label that no line carries. -/
def AsmValue.resolve (labels : List (Text × Nat)) : AsmValue → Option Int
  | .number n => some n
  | .label name offset => (labels.lookup name).map (fun a => (a : Int) + (offset : Int))

/-- The operand that a written one stands for (R83). -/
def AsmOperand.resolve (labels : List (Text × Nat)) : AsmOperand → Option Operand
  | .position n => (n.resolve labels).map (fun v => { mode := .position, literal := v })
  | .immediate n => (n.resolve labels).map (fun v => { mode := .immediate, literal := v })
  | .relativePlus n => (n.resolve labels).map (fun v => { mode := .relative, literal := v })
  | .relativeMinus n => (n.resolve labels).map (fun v => { mode := .relative, literal := -v })

/-- The instruction of a mnemonic and its operands, in the document's argument order; none for a
wrong number of operands (R64, R83, R84). -/
def AsmName.instr? : AsmName → List Operand → Option Instr
  | .opcode .add, [a, b, d] => some (.add a b d)
  | .opcode .mul, [a, b, d] => some (.mul a b d)
  | .opcode .input, [d] => some (.input d)
  | .opcode .output, [a] => some (.output a)
  | .opcode .jumpIfTrue, [c, t] => some (.jumpIfTrue c t)
  | .opcode .jumpIfFalse, [c, t] => some (.jumpIfFalse c t)
  | .opcode .lessThan, [a, b, d] => some (.lessThan a b d)
  | .opcode .equals, [a, b, d] => some (.equals a b d)
  | .opcode .adjustRb, [a] => some (.adjustRb a)
  | .opcode .halt, [] => some .halt
  | .mov, [s, d] => some (.mov s d)
  | .jmp, [t] => some (.jmp t)
  | .nop, [] => some .nop
  | _, _ => none

/-- The cells of a statement (R79, R83). -/
def AsmStatement.cells? (labels : List (Text × Nat)) : AsmStatement → Option (List Int)
  | .data values => some values
  | .instruction name operands =>
    match allOf (operands.map (AsmOperand.resolve labels)) with
    | none => none
    | some args => (name.instr? args).map encode

/-- The image of a program loaded at address 0 (R83). -/
def assembleLines (lines : List AsmLine) : Option (List Int) :=
  let labels := labelsFrom 0 lines
  (allOf (lines.map (fun line => line.statement.cells? labels))).map List.flatten

/-! ### From text to a structured program -/

/-- A label is a letter or underscore followed by letters, digits and underscores (log entry 15). -/
def isLabel : Text → Bool
  | [] => false
  | c :: cs => (c.isAlpha || decide (c = '_')) && cs.all (fun d => d.isAlphanum || decide (d = '_'))

/-- `n`, a decimal integer or a label, or `label+k` (R83). -/
def asmValue? (cs : Text) : Option AsmValue :=
  match integer? cs with
  | some n => some (.number n)
  | none =>
    match splitAt '+' cs with
    | [name] => if isLabel name then some (.label name 0) else none
    | [name, offset] =>
      if isLabel name then (natural? offset).map (fun k => .label name k) else none
    | _ => none

/-- `[n]`, `#n`, `[rb+n]` or `[rb-n]` (R83). -/
def asmOperand? (cs : Text) : Option AsmOperand :=
  match cs with
  | '#' :: n => (asmValue? n).map AsmOperand.immediate
  | '[' :: rest =>
    match rest.reverse with
    | ']' :: inner =>
      match inner.reverse with
      | 'r' :: 'b' :: '+' :: n => (asmValue? n).map AsmOperand.relativePlus
      | 'r' :: 'b' :: '-' :: n => (asmValue? n).map AsmOperand.relativeMinus
      | n => (asmValue? n).map AsmOperand.position
    | _ => none
  | _ => none

/-- The comma-separated fields after a mnemonic; no field at all for an empty text. -/
def asmFields (cs : Text) : List Text :=
  match trimBlanks cs with
  | [] => []
  | c :: rest => (splitAt ',' (c :: rest)).map trimBlanks

/-- A statement: `mnemonic operand, …` or `.data v1, v2, …` (R83). -/
def asmStatement? (cs : Text) : Option AsmStatement :=
  let name := cs.takeWhile (fun c => !isBlank c)
  let fields := asmFields (cs.dropWhile (fun c => !isBlank c))
  if name = ['.', 'd', 'a', 't', 'a'] then (allOf (fields.map integer?)).map AsmStatement.data
  else
    match asmNames.lookup name, allOf (fields.map asmOperand?) with
    | some m, some operands => some (.instruction m operands)
    | some _, none => none
    | none, _ => none

/-- A line: `label:` and a statement, or a statement alone (R83). R83 speaks of a label before an
instruction only; that one may stand before a `.data` line too is a DESIGN CHOICE (log entry 15). -/
def asmLine? (cs : Text) : Option AsmLine :=
  match splitAt ':' cs with
  | [statement] =>
    (asmStatement? (trimBlanks statement)).map (fun st => { label := none, statement := st })
  | [label, statement] =>
    if isLabel (trimBlanks label) then
      (asmStatement? (trimBlanks statement)).map
        (fun st => { label := some (trimBlanks label), statement := st })
    else none
  | _ => none

/-- A program, one statement a line; lines that hold only blanks are skipped (R83; log entry 15). -/
def asmProgram? (text : Text) : Option (List AsmLine) :=
  allOf (((splitAt '\n' text).filter (fun line => decide (trimBlanks line ≠ []))).map asmLine?)

/-- The image of a program text, loaded at address 0 (R83). -/
def assembleText? (text : Text) : Option (List Int) :=
  match asmProgram? text with
  | none => none
  | some lines => assembleLines lines

end Machine

end Sys2Proof
end

