-- ==== Sys2Proof/Machine/Attempt.lean ====
section
/-! DEFINITION. How the next step of a machine ends, with the difference `exec` cannot show in a next
state: whether it suspends, and why. "Suspended" is not state; it is computed from `mem`, `pc`, `rb`,
`inq` and `outq` (10_state.md rule R33; 60_exceptions.md rules R218 to R220). -/

namespace Sys2Proof.Machine

/-- How the execution of an instruction ends (R75); `exec i s` is its outcome. -/
def result (i : Instr) (s : State) : StepResult :=
  match i with
  | .add a b dst => addResult a b dst s
  | .mul a b dst => mulResult a b dst s
  | .input dst => inputResult dst s
  | .output a => outputResult a s
  | .jumpIfTrue cond target => jumpIfTrueResult cond target s
  | .jumpIfFalse cond target => jumpIfFalseResult cond target s
  | .lessThan a b dst => lessThanResult a b dst s
  | .equals a b dst => equalsResult a b dst s
  | .adjustRb a => adjustRbResult a s
  | .halt => haltResult s

/-- How `Step()` of R75 ends in a state taken as Running. -/
def attempt (s : State) : StepResult :=
  match s.fetch with
  | .ok i => result i s
  | .error f => .faulted f

/-- The reason the next step of a Running machine suspends, if it does (R33, R218). -/
def suspension (s : State) : Option SuspendReason :=
  match s.status with
  | .running =>
    match attempt s with
    | .completed _ => none
    | .faulted _ => none
    | .suspended r => some r
  | .halted => none
  | .faulted _ => none

end Sys2Proof.Machine
end

