-- ==== Sys2Proof/Machine/HostOps.lean ====
section
/-! DEFINITION. What crosses the boundary of the block at transaction level (41_io.md rule R132):
`new` (R250), `peek` and `poke` (R57 to R59), offering input and taking output (R126, R127), and
`run` (60_exceptions.md rules R210, R225, R233 to R235). None of them overlaps a step. -/

namespace Sys2Proof.Machine

/-- `new(image, io)` (R250, R251): the image at addresses 0..N-1, 0 elsewhere, `pc = 0`, `rb = 0`,
Running, `inq` the values offered at construction, `outq` empty. The image is copied (R252). -/
def State.new (config : Config) (image inputs : List Int) : State :=
  { mem := Memory.load [] 0 image, pc := 0, rb := 0, status := .running, inq := inputs, outq := [],
    config := config }

/-- `peek(machine, a)` (R57): the cell's value, and nothing changes; refused below 0 (R59; log
entry 9). -/
def State.peek (s : State) (a : Int) : Except Refusal Int :=
  if a < 0 then .error (.negativeHostAddress a) else .ok (s.mem.read a.toNat)

/-- `poke(machine, a, v)` (R58): a `MemWrite` and nothing else; refused below 0 (R59). -/
def State.poke (s : State) (a v : Int) : Except Refusal State :=
  if a < 0 then .error (.negativeHostAddress a) else .ok (s.writeMem a.toNat v)

/-- The host appends a value to `inq` (R126). -/
def State.offerInput (s : State) (v : Int) : State := s.setInq (s.inq ++ [v])

/-- The host removes the head of `outq`, if there is one (R127). The spec does not say what taking from
an empty `outq` does: that it answers no value is a DESIGN CHOICE (log entry 18). -/
def State.takeOutput (s : State) : Option (Int × State) :=
  match s.outq with
  | [] => none
  | v :: rest => some (v, { s with outq := rest })

/-- The host operations that change a machine between its steps (R132, R226). -/
inductive HostOp where
  | poke (a v : Int)
  | offerInput (v : Int)
  | takeOutput
  deriving DecidableEq, Repr

/-- The state a host operation leaves. A refused `poke` changes nothing (R59). That taking from an empty
`outq` changes nothing either is a DESIGN CHOICE: neither R127 nor R132 says what it does (log
entry 18). -/
def State.afterHostOp (s : State) : HostOp → State
  | .poke a v =>
    match s.poke a v with
    | .ok t => t
    | .error _ => s
  | .offerInput v => s.offerInput v
  | .takeOutput =>
    match s.takeOutput with
    | none => s
    | some (_, t) => t

/-- The outcome with which `run` returns at once in a state, if it does: the machine has stopped, or
its next step suspends (R225, R233). -/
def State.runEnd? (s : State) : Option RunOutcome :=
  match s.status with
  | .running => (suspension s).map RunOutcome.suspended
  | .halted => some .halted
  | .faulted f => some (.faulted f.kind)

/-- `run(machine)` (R233) under a budget of completed instructions. An exhausted budget is no outcome
(R235; log entry 17): the first component is then `none`. -/
def run : Nat → State → Option RunOutcome × State
  | 0, s => (s.runEnd?, s)
  | budget + 1, s =>
    match s.runEnd? with
    | some o => (some o, s)
    | none =>
      match step s with
      | .next t => run budget t
      | .fault r => nomatch r
      | .refused _ => (none, s)

/-- The values emitted between two states of one run, in order (R127, R234; log entry 14). -/
def emittedBetween (s t : State) : List Int := t.outq.drop s.outq.length

/-- What the caller observes of a run (R234): its outcome, the values it emitted and, through `peek`,
the memory at its end. -/
structure Observation where
  outcome : Option RunOutcome
  emitted : List Int
  memory  : Memory
  deriving DecidableEq, Repr

/-- The observation of a run under a budget (R234). -/
def observe (budget : Nat) (s : State) : Observation :=
  let (o, t) := run budget s
  { outcome := o, emitted := emittedBetween s t, memory := t.mem }

/-- The feed-forward reference topology (R238): each machine is run to Halted and its whole output
sequence is appended to the next machine's `inq`. The answer holds the machines at their end and the
output of the last one; none where some run does not end Halted (R261; log entry 10). R238 does not say
whether the values passed on leave the producer's `outq`: that they stay in it as well is a DESIGN CHOICE
(log entry 10). -/
def feedForward (budget : Nat) : List Int → List State → Option (List State × List Int)
  | input, [] => some ([], input)
  | input, m :: ms =>
    let start := m.setInq (m.inq ++ input)
    match run budget start with
    | (some .halted, t) =>
      match feedForward budget (emittedBetween start t) ms with
      | none => none
      | some (ts, out) => some (t :: ts, out)
    | (some (.faulted _), _) => none
    | (some (.suspended _), _) => none
    | (none, _) => none

end Sys2Proof.Machine
end

