-- ==== Sys2Proof/Machine/Network.lean ====
section
/-! DEFINITION. Several machines composed by channels (60_exceptions.md rules R236 to R241): the
interleaving of R239, in which the choice of the machine to step is free, and deadlock (R240). -/

namespace Sys2Proof.Machine

/-- A channel (R237): one queue that is both the producer's `outq` and the consumer's `inq`, oldest
value first. A bounded channel of capacity `c` is the producer's `OUT_CAP = some c`. -/
structure Channel where
  /-- the machine whose output it is, by its place in the network -/
  producer : Nat
  /-- the machine whose input it is, by its place in the network -/
  consumer : Nat
  queue    : List Int
  /-- every value the producer has emitted into the channel, oldest first: an observer's record that
  no step reads (R241; log entry 13) -/
  emitted  : List Int
  deriving DecidableEq, Repr

/-- A network: any finite number of machines, each with its own state (R236), and the channels that
join them. The `inq` and `outq` kept in a machine are its ends towards the host; at an end that a
channel is wired to, the channel's queue stands in its place (log entry 13). -/
structure Network where
  machines : List State
  channels : List Channel
  deriving DecidableEq, Repr

/-- The channel a machine consumes from, if one is wired to its input. -/
def Network.inChannel? (n : Network) (i : Nat) : Option Channel :=
  n.channels.find? (fun c => decide (c.consumer = i))

/-- The channel a machine produces into, if one is wired to its output. -/
def Network.outChannel? (n : Network) (i : Nat) : Option Channel :=
  n.channels.find? (fun c => decide (c.producer = i))

/-- The `inq` of a machine in the network (R237). -/
def Network.inQueue (n : Network) (i : Nat) (m : State) : List Int :=
  match n.inChannel? i with
  | none => m.inq
  | some c => c.queue

/-- The `outq` of a machine in the network (R237). -/
def Network.outQueue (n : Network) (i : Nat) (m : State) : List Int :=
  match n.outChannel? i with
  | none => m.outq
  | some c => c.queue

/-- Machine `i` as it takes its steps: its own state with the queues of its channels. -/
def Network.view? (n : Network) (i : Nat) : Option State :=
  match n.machines[i]? with
  | none => none
  | some m => some { m with inq := n.inQueue i m, outq := n.outQueue i m }

/-- A machine can step when it is Running and its next step does not suspend (R239). -/
def State.canStep (s : State) : Bool :=
  decide (s.status = .running) && (suspension s).isNone

/-- Machine `i` of the network can step (R239). -/
def Network.canStep (n : Network) (i : Nat) : Bool :=
  match n.view? i with
  | none => false
  | some v => v.canStep

/-- A channel after a step of machine `i` that left `inq` as its input queue and emitted `values`:
the consumer's removal first, then the producer's append at the tail (R237, R241). -/
def Channel.afterStep (c : Channel) (i : Nat) (inq values : List Int) : Channel :=
  let kept := if c.consumer = i then inq else c.queue
  if c.producer = i then { c with queue := kept ++ values, emitted := c.emitted ++ values }
  else { c with queue := kept }

/-- Machine `i`'s kept state after a step from the kept state `m` to the view `t`: a queue that a
channel stands for is left as it was. -/
def Network.kept (n : Network) (i : Nat) (m t : State) : State :=
  { t with
    inq := (match n.inChannel? i with | none => t.inq | some _ => m.inq)
    outq := (match n.outChannel? i with | none => t.outq | some _ => m.outq) }

/-- A global step (R239): machine `i` executes one step; none when it cannot step. -/
def Network.globalStep (n : Network) (i : Nat) : Option Network :=
  match n.machines[i]?, n.view? i with
  | some m, some v =>
    if v.canStep then
      match step v with
      | .next t =>
        some { machines := n.machines.set i (n.kept i m t),
               channels := n.channels.map (fun c => c.afterStep i t.inq (emittedBetween v t)) }
      | .fault r => nomatch r
      | .refused _ => none
    else none
  | some _, none => none
  | none, _ => none

/-- The network after a schedule of global steps, each a choice of a machine that can step; none when
a chosen machine cannot (R239). -/
def Network.runSchedule : List Nat → Network → Option Network
  | [], n => some n
  | i :: rest, n =>
    match n.globalStep i with
    | none => none
    | some n' => n'.runSchedule rest

/-- No machine of the network can step (R240, R241). -/
def Network.stuck (n : Network) : Bool :=
  (List.range n.machines.length).all (fun i => !n.canStep i)

/-- Deadlock (R240): no machine can take a step and at least one is Running. -/
def Network.deadlocked (n : Network) : Bool :=
  n.stuck && n.machines.any (fun m => decide (m.status = .running))

/-- The wiring is point to point (R237): every channel joins machines of the network, no machine
produces into two channels and none consumes from two. -/
def Network.wired (n : Network) : Bool :=
  n.channels.all (fun c => decide (c.producer < n.machines.length) && decide (c.consumer < n.machines.length))
    && decide (n.channels.map Channel.producer).Nodup && decide (n.channels.map Channel.consumer).Nodup

/-- The host appends a value to machine `i`'s `inq`, which is its channel's queue where one is wired
(R126, R237, R240; log entry 11). -/
def Network.offerInput (n : Network) (i : Nat) (v : Int) : Network :=
  match n.inChannel? i with
  | none => { n with machines := n.machines.modify i (fun m => m.offerInput v) }
  | some _ =>
    { n with channels := n.channels.map (fun c =>
        if c.consumer = i then { c with queue := c.queue ++ [v] } else c) }

/-- The host removes the head of machine `i`'s `outq`, which is its channel's queue where one is wired
(R127, R237, R240; log entry 11); taking from an empty one changes nothing (DESIGN CHOICE, log
entry 18). -/
def Network.takeOutput (n : Network) (i : Nat) : Network :=
  match n.outChannel? i with
  | none => { n with machines := n.machines.modify i (fun m => m.afterHostOp .takeOutput) }
  | some _ =>
    { n with channels := n.channels.map (fun c =>
        if c.producer = i then { c with queue := c.queue.tail } else c) }

end Sys2Proof.Machine
end

