-- ==== Sys2Proof/Safety.lean ====
section
/-! DEFINITION. The terms in which claims are stated: the invariant every step keeps, and the
instruction cycle of 30_encoding.md rule R75 written once more, line for line as the spec's pseudocode
has it, over digits and literals and without `Instr`, for the machine to be compared with. -/

namespace Sys2Proof.Machine

/-! ### The invariant -/

/-- The decimal digit of a word at which the mode of argument `k` stands (R61). -/
def modeDigitOf (w : Int) (k : Nat) : Nat := digit w.toNat (k + 1)

/-- A fault record is one that some instruction of the machine can leave (R211 to R217): its kind, the
argument at fault, the address and the reason fit together and fit the word. -/
def FaultRecord.consistent (f : FaultRecord) : Prop :=
  match f.kind with
  | .decodeFault =>
    f.addr = none ∧
      ((f.reason = some .negativeWord ∧ f.arg = none ∧ f.word < 0) ∨
        (f.reason = some .unknownOpcode ∧ f.arg = none ∧ 0 ≤ f.word ∧
          Opcode.ofNumber? (f.word.toNat % 100) = none) ∨
        ∃ k, f.reason = some (.badMode k) ∧ f.arg = some k ∧ 0 ≤ f.word ∧ 1 ≤ k ∧ k ≤ 3 ∧
          3 ≤ modeDigitOf f.word k)
  | .invalidWriteTarget =>
    f.addr = none ∧ f.reason = none ∧
      ∃ k, f.arg = some k ∧ 0 ≤ f.word ∧ modeDigitOf f.word k = 1 ∧
        ∃ op, Opcode.ofNumber? (f.word.toNat % 100) = some op ∧ op.writePosition? = some k
  | .immediateAddressFault => False
  | .addressFault =>
    f.reason = none ∧ (∃ k, f.arg = some k ∧ 1 ≤ k ∧ k ≤ 3) ∧ ∃ a, f.addr = some a ∧ a < 0

/-- What holds of every state the machine reaches: memory is in its canonical form (R45), a fault
record is consistent and names the instruction at `pc` (R212, R222), and a bounded output channel
never holds more than its capacity (R131). -/
structure State.Inv (s : State) : Prop where
  memory  : s.mem.wf = true
  fault   : ∀ f, s.status = .faulted f → f.consistent ∧ f.pc = s.pc
  channel : ∀ c, s.config.outCap = some c → s.outq.length ≤ c

/-- The states of a machine's life (R28, R132): after construction, and after every step and every
host operation. -/
inductive Reachable : State → Prop where
  | constructed (config : Config) (image inputs : List Int) : Reachable (State.new config image inputs)
  | stepped {s t : State} : Reachable s → step s = .next t → Reachable t
  | host {s : State} (op : HostOp) : Reachable s → Reachable (s.afterHostOp op)

/-! ### The instruction cycle of R75, line for line -/

namespace Reference

/-- The arity column of the table of R64. -/
def arity (op : Nat) : Nat :=
  if op ∈ [1, 2, 7, 8] then 3 else if op ∈ [5, 6] then 2 else if op ∈ [3, 4, 9] then 1 else 0

/-- `wpos(op)` of R65. -/
def wpos (op : Nat) : Option Nat :=
  if op ∈ [1, 2, 7, 8] then some 3 else if op = 3 then some 1 else none

/-- The positions `1 .. n` of the loops of R63 and R75. -/
def positions (n : Nat) : List Nat := (List.range n).map (· + 1)

/-- `m[k] <- (w div 100) div 10^(k-1) mod 10` (R63). -/
def mode (w : Int) (k : Nat) : Nat := w.toNat / 100 / 10 ^ (k - 1) % 10

/-- The rules of the opcodes (R100, R101, R121, R122, R150, R151, R170, R171, R190, R191) over the
locals `w`, `v` and `a` of the cycle. -/
def rule (op : Nat) (w : Int) (v : Nat → Int) (a : Nat → Nat) (s : State) : StepResult :=
  let jump (taken : Bool) : StepResult :=
    if taken then
      if v 2 < 0 then .faulted ⟨.addressFault, s.pc, w, some 2, some (v 2), none⟩
      else .completed { s with pc := (v 2).toNat }
    else .completed { s with pc := s.pc + 3 }
  let store (x : Int) : StepResult :=
    .completed { s with mem := s.mem.write (a 3) x, pc := s.pc + 4 }
  if op = 1 then store (v 1 + v 2)
  else if op = 2 then store (v 1 * v 2)
  else if op = 3 then
    if s.inq = [] then .suspended .inputStarvation
    else .completed { s with mem := s.mem.write (a 1) (s.inq.headD 0), inq := s.inq.tail, pc := s.pc + 2 }
  else if op = 4 then
    if s.config.outCap.any (fun c => decide (c ≤ s.outq.length)) then .suspended .outputBackpressure
    else .completed { s with outq := s.outq ++ [v 1], pc := s.pc + 2 }
  else if op = 5 then jump (decide (v 1 ≠ 0))
  else if op = 6 then jump (decide (v 1 = 0))
  else if op = 7 then store (if v 1 < v 2 then 1 else 0)
  else if op = 8 then store (if v 1 = v 2 then 1 else 0)
  else if op = 9 then .completed { s with rb := s.rb + v 1, pc := s.pc + 2 }
  else .completed { s with status := .halted }

/-- `Step()` of R75 with `Decode(w)` of R63 in it. -/
def cycle (s : State) : StepResult :=
  let w := s.mem.read s.pc
  let op := w.toNat % 100
  let m := mode w
  let p := fun k => s.mem.read (s.pc + k)
  let ea := fun k => if m k = 2 then p k + s.rb else p k
  if w < 0 then .faulted ⟨.decodeFault, s.pc, w, none, none, some .negativeWord⟩
  else if op ∉ [1, 2, 3, 4, 5, 6, 7, 8, 9, 99] then
    .faulted ⟨.decodeFault, s.pc, w, none, none, some .unknownOpcode⟩
  else
    match (positions (arity op)).find? (fun k => decide (m k ∉ [0, 1, 2])) with
    | some k => .faulted ⟨.decodeFault, s.pc, w, some k, none, some (.badMode k)⟩
    | none =>
      if (wpos op).any (fun k => decide (m k = 1)) then
        .faulted ⟨.invalidWriteTarget, s.pc, w, wpos op, none, none⟩
      else
        match (positions (arity op)).find? (fun k => decide (m k ≠ 1) && decide (ea k < 0)) with
        | some k => .faulted ⟨.addressFault, s.pc, w, some k, some (ea k), none⟩
        | none =>
          rule op w (fun k => if m k = 1 then p k else s.mem.read (ea k).toNat)
            (fun k => (ea k).toNat) s

end Reference

end Sys2Proof.Machine
end

