-- ==== Sys2Proof/Certificates/Slice0/Obligations.lean ====
section
/-! DEFINITION. The statements for the provers, each with the rule of spec/ it formalises. -/

open Sys2Proof Sys2Proof.Machine

/-! ### Encoding and decoding (30_encoding.md) -/

/-- R79 (which the spec marks "derived: from rule R61"): the canonical word is
`op + 100*m1 + 1000*m2 + 10000*m3`, 0 for every position the opcode has no argument for; with the five
words the rule gives as examples, and one word for every other opcode. -/
def Obligations.CanonicalWordFormula : Prop :=
  (∀ i : Instr, i.word =
    i.opcode.number + 100 * (i.operands[0]?.map (fun o => o.mode.toDigit)).getD 0
      + 1000 * (i.operands[1]?.map (fun o => o.mode.toDigit)).getD 0
      + 10000 * (i.operands[2]?.map (fun o => o.mode.toDigit)).getD 0) ∧
  decodeWord 1002 = .ok (.mul, [.position, .immediate, .position]) ∧
  decodeWord 21101 = .ok (.add, [.immediate, .immediate, .relative]) ∧
  decodeWord 109 = .ok (.adjustRb, [.immediate]) ∧
  decodeWord 203 = .ok (.input, [.relative]) ∧
  decodeWord 99 = .ok (.halt, []) ∧
  decodeWord 104 = .ok (.output, [.immediate]) ∧
  decodeWord 1105 = .ok (.jumpIfTrue, [.immediate, .immediate]) ∧
  decodeWord 2206 = .ok (.jumpIfFalse, [.relative, .relative]) ∧
  decodeWord 20007 = .ok (.lessThan, [.position, .position, .relative]) ∧
  decodeWord 1108 = .ok (.equals, [.immediate, .immediate, .position])

/-- R80 (which the spec marks "derived: from rule R61 and rule R63"): digits the opcode does not decode are ignored, so adding any multiple of
`10^(2 + arity)` to a word changes nothing; with the words the rule gives as examples. -/
def Obligations.UndecodedDigitsAreIgnored : Prop :=
  (∀ (w m : Nat) (op : Opcode) (lit : Nat → Int), Opcode.ofNumber? (w % 100) = some op →
    decode ((w + 10 ^ (2 + op.arity) * m : Nat) : Int) lit = decode (w : Int) lit) ∧
  (∀ w ∈ [(99 : Int), 199, 12399, 100099], decodeWord w = .ok (.halt, [])) ∧
  (∀ w ∈ [(4 : Int), 1004, 99004], decodeWord w = .ok (.output, [.position])) ∧
  (∀ w ∈ [(1105 : Int), 91105], decodeWord w = .ok (.jumpIfTrue, [.immediate, .immediate]))

/-- Decode and encode agree: every well-formed instruction, with every operand in every mode it admits
and with every literal, is decoded from its own cells (R60, R63, R79). -/
def Obligations.DecodeInvertsEncode : Prop :=
  ∀ i : Instr, i.wf = true → decodeCells (encode i) = .ok i

/-- The other direction: what a word decodes to is well formed, its canonical word is the word's
decoded digits, and its literals are those of the cells after the word (R61, R68, R69, R70, R80). -/
def Obligations.DecodedInstrIsTheWordsDigits : Prop :=
  ∀ (w : Int) (lit : Nat → Int) (i : Instr), decode w lit = .ok i →
    0 ≤ w ∧ i.wf = true ∧ i.word = w.toNat % 10 ^ (2 + i.opcode.arity) ∧
      ∀ (k : Nat) (o : Operand), i.operands[k]? = some o → o.literal = lit (k + 1)

/-- R81: exactly the four kinds of illegal word are rejected, each by its own name, the first check of
R63 that fails being the one named (R62, R64, R67, R69, R221). -/
def Obligations.IllegalWordsByName : Prop :=
  ∀ (w : Int) (lit : Nat → Int),
    (decode w lit = .error .negativeWord ↔ w < 0) ∧
    (decode w lit = .error .unknownOpcode ↔
      0 ≤ w ∧ w.toNat % 100 ∉ [1, 2, 3, 4, 5, 6, 7, 8, 9, 99]) ∧
    (∀ k, decode w lit = .error (.badMode k) ↔
      0 ≤ w ∧ ∃ op, Opcode.ofNumber? (w.toNat % 100) = some op ∧ 1 ≤ k ∧ k ≤ op.arity ∧
        3 ≤ digit w.toNat (k + 1) ∧ ∀ j, 1 ≤ j → j < k → digit w.toNat (j + 1) < 3) ∧
    (∀ k, decode w lit = .error (.invalidWriteTarget k) ↔
      0 ≤ w ∧ ∃ op, Opcode.ofNumber? (w.toNat % 100) = some op ∧ op.writePosition? = some k ∧
        (∀ j, 1 ≤ j → j ≤ op.arity → digit w.toNat (j + 1) < 3) ∧ digit w.toNat (k + 1) = 1)

/-- R84: each pseudo-instruction is one real instruction, of 4, 3 and 3 cells, and has its rule: `mov`
copies, `jmp` jumps, `nop` only advances `pc`. -/
def Obligations.PseudoInstructions : Prop :=
  (∀ src dst : Operand, Instr.mov src dst = .add src { mode := .immediate, literal := 0 } dst ∧
    (encode (Instr.mov src dst)).length = 4) ∧
  (∀ target : Operand, Instr.jmp target = .jumpIfTrue { mode := .immediate, literal := 1 } target ∧
    (encode (Instr.jmp target)).length = 3) ∧
  encode Instr.nop = [1105, 0, 0] ∧
  ∀ s : State,
    (∀ (src dst : Operand) (v : Int) (a : Nat), readArg s 1 src = .ok v → writeArg s 3 dst = .ok a →
      exec (Instr.mov src dst) s = .next { s with mem := s.mem.write a v, pc := s.pc + 4 }) ∧
    (∀ (target : Operand) (v : Int), readArg s 2 target = .ok v → 0 ≤ v →
      exec (Instr.jmp target) s = .next { s with pc := v.toNat }) ∧
    exec Instr.nop s = .next { s with pc := s.pc + 3 }

/-! ### The argument resolver (30_encoding.md) -/

/-- R71: the effective address is the literal in mode 0 and the literal plus `rb` in mode 2; an argument
in mode 1 has none. -/
def Obligations.EffectiveAddressByMode : Prop :=
  ∀ p rb : Int,
    effectiveAddress { mode := .position, literal := p } rb = some p ∧
    effectiveAddress { mode := .relative, literal := p } rb = some (p + rb) ∧
    effectiveAddress { mode := .immediate, literal := p } rb = none

/-- R72 (and R69, R73): the value of a read argument, from memory as it stands, and the address of a write
argument in mode 0 or 2; a mode-1 write argument is an InvalidWriteTarget, never an
ImmediateAddressFault. -/
def Obligations.ArgumentsResolveByMode : Prop :=
  ∀ (s : State) (k : Nat) (p : Int),
    readArg s k { mode := .immediate, literal := p } = .ok p ∧
    (0 ≤ p → readArg s k { mode := .position, literal := p } = .ok (s.mem.read p.toNat)) ∧
    (0 ≤ p + s.rb → readArg s k { mode := .relative, literal := p } = .ok (s.mem.read (p + s.rb).toNat)) ∧
    (0 ≤ p → writeArg s k { mode := .position, literal := p } = .ok p.toNat) ∧
    (0 ≤ p + s.rb → writeArg s k { mode := .relative, literal := p } = .ok (p + s.rb).toNat) ∧
    writeArg s k { mode := .immediate, literal := p } = .error (s.invalidWriteTarget k)

/-- R74: the first argument whose effective address is negative raises AddressFault with its position
and that address, and nothing else changes; an immediate argument never does. -/
def Obligations.NegativeEffectiveAddressFaults : Prop :=
  (∀ (i : Instr) (s : State) (k : Nat) (o : Operand) (ea : Int), i.wf = true →
    i.operands[k]? = some o → effectiveAddress o s.rb = some ea → ea < 0 →
    (∀ (j : Nat) (o' : Operand) (ea' : Int), j < k → i.operands[j]? = some o' →
      effectiveAddress o' s.rb = some ea' → 0 ≤ ea') →
    exec i s = .next { s with
      status := .faulted { kind := .addressFault, pc := s.pc, word := s.mem.read s.pc,
                           arg := some (k + 1), addr := some ea, reason := none } }) ∧
  ∀ (s : State) (k : Nat) (p : Int), readArg s k { mode := .immediate, literal := p } = .ok p

/-! ### The instructions (40_arithmetic.md to 44_rb_halt.md): what each does when it completes -/

/-- R100, pseudocode: add writes the exact sum and advances `pc` by 4, whenever its arguments resolve. -/
def Obligations.AddStoresTheSum : Prop :=
  ∀ (a b dst : Operand) (s : State) (v1 v2 : Int) (a3 : Nat),
    readArg s 1 a = .ok v1 → readArg s 2 b = .ok v2 → writeArg s 3 dst = .ok a3 →
    exec (.add a b dst) s = .next { s with mem := s.mem.write a3 (v1 + v2), pc := s.pc + 4 }

/-- R101, pseudocode: mul writes the exact product and advances `pc` by 4. -/
def Obligations.MulStoresTheProduct : Prop :=
  ∀ (a b dst : Operand) (s : State) (v1 v2 : Int) (a3 : Nat),
    readArg s 1 a = .ok v1 → readArg s 2 b = .ok v2 → writeArg s 3 dst = .ok a3 →
    exec (.mul a b dst) s = .next { s with mem := s.mem.write a3 (v1 * v2), pc := s.pc + 4 }

/-- R170, pseudocode: less-than writes 1 when `a < b` in ℤ and 0 otherwise, and advances `pc` by 4. -/
def Obligations.LessThanStoresOneOrZero : Prop :=
  ∀ (a b dst : Operand) (s : State) (v1 v2 : Int) (a3 : Nat),
    readArg s 1 a = .ok v1 → readArg s 2 b = .ok v2 → writeArg s 3 dst = .ok a3 →
    exec (.lessThan a b dst) s =
      .next { s with mem := s.mem.write a3 (if v1 < v2 then 1 else 0), pc := s.pc + 4 }

/-- R171, pseudocode: equals writes 1 when `a = b` and 0 otherwise, and advances `pc` by 4. -/
def Obligations.EqualsStoresOneOrZero : Prop :=
  ∀ (a b dst : Operand) (s : State) (v1 v2 : Int) (a3 : Nat),
    readArg s 1 a = .ok v1 → readArg s 2 b = .ok v2 → writeArg s 3 dst = .ok a3 →
    exec (.equals a b dst) s =
      .next { s with mem := s.mem.write a3 (if v1 = v2 then 1 else 0), pc := s.pc + 4 }

/-- R172 (which the spec marks "derived: from rule R170 and rule R171"): the comparisons write exactly 1 or 0, never another value; and `equals x, #0, dst` writes 1
exactly when `x = 0`. -/
def Obligations.ComparisonsWriteOnlyOneOrZero : Prop :=
  (∀ (a b dst : Operand) (s t : State) (i : Instr),
    i = .lessThan a b dst ∨ i = .equals a b dst → result i s = .completed t →
      ∃ a3, writeArg s 3 dst = .ok a3 ∧ (t.mem.read a3 = 1 ∨ t.mem.read a3 = 0)) ∧
  ∀ (x dst : Operand) (s : State) (v : Int) (a3 : Nat), readArg s 1 x = .ok v →
    writeArg s 3 dst = .ok a3 →
    ∃ t, exec (.equals x { mode := .immediate, literal := 0 } dst) s = .next t ∧
      t.mem.read a3 = if v = 0 then 1 else 0

/-- R121, pseudocode: input writes the oldest value of `inq`, removes it and advances `pc` by 2. -/
def Obligations.InputConsumesTheOldestValue : Prop :=
  ∀ (dst : Operand) (s : State) (a1 : Nat) (v : Int) (rest : List Int),
    writeArg s 1 dst = .ok a1 → s.inq = v :: rest →
    exec (.input dst) s = .next { s with mem := s.mem.write a1 v, inq := rest, pc := s.pc + 2 }

/-- R122, pseudocode: output appends the value to `outq` and advances `pc` by 2, unless the channel is
full. -/
def Obligations.OutputAppendsTheValue : Prop :=
  ∀ (a : Operand) (s : State) (v1 : Int), readArg s 1 a = .ok v1 →
    (∀ c, s.config.outCap = some c → s.outq.length < c) →
    exec (.output a) s = .next { s with outq := s.outq ++ [v1], pc := s.pc + 2 }

/-- R150, pseudocode: jump-if-true jumps to the target's value on any non-zero condition and passes
otherwise. -/
def Obligations.JumpIfTrueJumpsOnNonZero : Prop :=
  ∀ (cond target : Operand) (s : State) (v1 v2 : Int), readArg s 1 cond = .ok v1 →
    readArg s 2 target = .ok v2 →
    (v1 ≠ 0 → 0 ≤ v2 → exec (.jumpIfTrue cond target) s = .next { s with pc := v2.toNat }) ∧
    (v1 = 0 → exec (.jumpIfTrue cond target) s = .next { s with pc := s.pc + 3 })

/-- R151, pseudocode: jump-if-false jumps to the target's value on exactly 0 and passes otherwise. -/
def Obligations.JumpIfFalseJumpsOnZero : Prop :=
  ∀ (cond target : Operand) (s : State) (v1 v2 : Int), readArg s 1 cond = .ok v1 →
    readArg s 2 target = .ok v2 →
    (v1 = 0 → 0 ≤ v2 → exec (.jumpIfFalse cond target) s = .next { s with pc := v2.toNat }) ∧
    (v1 ≠ 0 → exec (.jumpIfFalse cond target) s = .next { s with pc := s.pc + 3 })

/-- R152: a taken jump to a negative target raises AddressFault with argument 2 and the target, `pc`
and everything else unchanged; a jump that is not taken never faults on its target's value. -/
def Obligations.TakenJumpToNegativeTargetFaults : Prop :=
  ∀ (cond target : Operand) (s : State) (v1 v2 : Int), readArg s 1 cond = .ok v1 →
    readArg s 2 target = .ok v2 → v2 < 0 →
    (v1 ≠ 0 →
      exec (.jumpIfTrue cond target) s = .next { s with
        status := .faulted { kind := .addressFault, pc := s.pc, word := s.mem.read s.pc,
                             arg := some 2, addr := some v2, reason := none } } ∧
      exec (.jumpIfFalse cond target) s = .next { s with pc := s.pc + 3 }) ∧
    (v1 = 0 →
      exec (.jumpIfFalse cond target) s = .next { s with
        status := .faulted { kind := .addressFault, pc := s.pc, word := s.mem.read s.pc,
                             arg := some 2, addr := some v2, reason := none } } ∧
      exec (.jumpIfTrue cond target) s = .next { s with pc := s.pc + 3 })

/-- R190, pseudocode: adjust-rb adds the value, resolved with the old `rb`, and advances `pc` by 2. -/
def Obligations.AdjustRbAddsTheValue : Prop :=
  ∀ (a : Operand) (s : State) (v1 : Int), readArg s 1 a = .ok v1 →
    exec (.adjustRb a) s = .next { s with rb := s.rb + v1, pc := s.pc + 2 }

/-- R191: halt sets the status and nothing else; higher digits of its word are ignored; the run returns
Halted and no further instruction executes. -/
def Obligations.HaltStopsTheMachine : Prop :=
  (∀ s : State, exec .halt s = .next { s with status := .halted }) ∧ encode .halt = [99] ∧
  (∀ (m : Nat) (lit : Nat → Int), decode ((99 + 100 * m : Nat) : Int) lit = .ok .halt) ∧
  ∀ s : State, s.status = .halted → step s = .next s ∧ ∀ budget, run budget s = (some .halted, s)

/-! ### Frames: what an instruction leaves unchanged -/

/-- The frame of add, mul, less-than and equals (R34, R55, R100, R101, R170, R171, R214): only the one
cell that argument 3 names, `pc` and, on a fault, `status` can change. -/
def Obligations.ThreeArgumentFrame : Prop :=
  ∀ (a b dst : Operand) (s t : State) (i : Instr),
    i = .add a b dst ∨ i = .mul a b dst ∨ i = .lessThan a b dst ∨ i = .equals a b dst →
    exec i s = .next t →
    t.rb = s.rb ∧ t.inq = s.inq ∧ t.outq = s.outq ∧ t.config = s.config ∧
    ((t.status = s.status ∧ t.pc = s.pc + 4) ∨
      (t.mem = s.mem ∧ t.pc = s.pc ∧ ∃ f, t.status = .faulted f)) ∧
    (∀ a3, writeArg s 3 dst = .ok a3 → ∀ x, x ≠ a3 → t.mem.read x = s.mem.read x) ∧
    (∀ f, writeArg s 3 dst = .error f → ∀ x, t.mem.read x = s.mem.read x)

/-- The frame of input (R34, R121): only the cell that its argument names, `inq`, `pc` and, on a fault,
`status` can change. -/
def Obligations.InputFrame : Prop :=
  ∀ (dst : Operand) (s t : State), exec (.input dst) s = .next t →
    t.rb = s.rb ∧ t.outq = s.outq ∧ t.config = s.config ∧
    ((t.status = s.status ∧ t.pc = s.pc + 2 ∧ t.inq = s.inq.tail) ∨ t = s ∨
      (t.mem = s.mem ∧ t.inq = s.inq ∧ t.pc = s.pc ∧ ∃ f, t.status = .faulted f)) ∧
    (∀ a1, writeArg s 1 dst = .ok a1 → ∀ x, x ≠ a1 → t.mem.read x = s.mem.read x) ∧
    (∀ f, writeArg s 1 dst = .error f → ∀ x, t.mem.read x = s.mem.read x)

/-- The frame of the instructions that store nothing (R34): output changes only `outq` and `pc`, the
jumps only `pc`, adjust-rb only `rb` and `pc`, halt only `status`; on a fault only `status`. -/
def Obligations.NonStoringFrame : Prop :=
  ∀ (a b : Operand) (s t : State) (i : Instr),
    i = .output a ∨ i = .jumpIfTrue a b ∨ i = .jumpIfFalse a b ∨ i = .adjustRb a ∨ i = .halt →
    exec i s = .next t →
    (∀ x, t.mem.read x = s.mem.read x) ∧ t.mem = s.mem ∧ t.inq = s.inq ∧ t.config = s.config ∧
    (i ≠ .adjustRb a → t.rb = s.rb) ∧ (i ≠ .output a → t.outq = s.outq) ∧
    (i ≠ .halt → t.status = s.status ∨ ((∃ f, t.status = .faulted f) ∧ t.pc = s.pc ∧ t.rb = s.rb ∧ t.outq = s.outq)) ∧
    (i = .halt → t.pc = s.pc)

/-! ### Faults (60_exceptions.md) -/

/-- R62, R67, R213: a Running machine whose word at `pc` is negative, or names no opcode, or has a mode
digit 3 to 9 for one of its arguments, takes a DecodeFault with that reason, and nothing else changes. -/
def Obligations.IllegalWordRaisesDecodeFault : Prop :=
  ∀ (s : State) (w : Int), s.status = .running → w = s.mem.read s.pc →
    (w < 0 → step s = .next { s with
      status := .faulted { kind := .decodeFault, pc := s.pc, word := w, arg := none, addr := none,
                           reason := some .negativeWord } }) ∧
    (0 ≤ w → w.toNat % 100 ∉ [1, 2, 3, 4, 5, 6, 7, 8, 9, 99] → step s = .next { s with
      status := .faulted { kind := .decodeFault, pc := s.pc, word := w, arg := none, addr := none,
                           reason := some .unknownOpcode } }) ∧
    (∀ (op : Opcode) (k : Nat), 0 ≤ w → Opcode.ofNumber? (w.toNat % 100) = some op →
      1 ≤ k → k ≤ op.arity → 3 ≤ digit w.toNat (k + 1) →
      (∀ j, 1 ≤ j → j < k → digit w.toNat (j + 1) < 3) → step s = .next { s with
        status := .faulted { kind := .decodeFault, pc := s.pc, word := w, arg := some k, addr := none,
                             reason := some (.badMode k) } })

/-- R215 (and R69): a write argument in mode 1, argument 3 of opcodes 1, 2, 7 and 8 or argument 1 of
opcode 3, raises InvalidWriteTarget, and nothing is committed. -/
def Obligations.ImmediateWriteTargetFaults : Prop :=
  ∀ (s : State) (w : Int) (op k : Nat), s.status = .running → w = s.mem.read s.pc → 0 ≤ w →
    w.toNat % 100 = op → (op ∈ [1, 2, 7, 8] ∧ k = 3 ∨ op = 3 ∧ k = 1) →
    (∀ j, 1 ≤ j → j ≤ k → digit w.toNat (j + 1) < 3) → digit w.toNat (k + 1) = 1 →
    step s = .next { s with
      status := .faulted { kind := .invalidWriteTarget, pc := s.pc, word := w, arg := some k,
                           addr := none, reason := none } }

/-- R214, R222 and the record of R212: a step that faults commits nothing but `status`, its record is
consistent and names the word at `pc`, and the run returns that fault. -/
def Obligations.FaultCommitsNothing : Prop :=
  ∀ (s t : State) (f : FaultRecord), s.status = .running → step s = .next t →
    t.status = .faulted f →
    t = { s with status := .faulted f } ∧ f.pc = s.pc ∧ f.word = s.mem.read s.pc ∧ f.consistent ∧
      ∀ budget, run (budget + 1) s = (some (.faulted f.kind), t)

/-- R216: no instruction raises ImmediateAddressFault, whatever its operands, and no step does. -/
def Obligations.ImmediateAddressFaultIsNeverRaised : Prop :=
  (∀ (i : Instr) (s : State) (f : FaultRecord), result i s = .faulted f →
    f.kind ≠ .immediateAddressFault) ∧
  ∀ (s : State) (f : FaultRecord), attempt s = .faulted f → f.kind ≠ .immediateAddressFault

/-- R225: a Halted or Faulted machine executes nothing, and `run` returns its outcome again; no host
operation changes its status. -/
def Obligations.StoppedMachineStaysStopped : Prop :=
  ∀ s : State,
    (s.status = .halted → step s = .next s ∧ ∀ budget, run budget s = (some .halted, s)) ∧
    (∀ f, s.status = .faulted f →
      step s = .next s ∧ ∀ budget, run budget s = (some (.faulted f.kind), s)) ∧
    ∀ op : HostOp, (s.afterHostOp op).status = s.status

/-! ### Suspension (41_io.md, 60_exceptions.md) -/

/-- R219 (and R121, R128): a step starves exactly when a Running machine's word decodes to an input whose
argument resolves and `inq` is empty. -/
def Obligations.StarvesExactlyOnEmptyInput : Prop :=
  ∀ s : State, suspension s = some .inputStarvation ↔
    s.status = .running ∧ s.inq = [] ∧
      ∃ (dst : Operand) (a1 : Nat), s.fetch = .ok (.input dst) ∧ writeArg s 1 dst = .ok a1

/-- R220 (and R122, R131): a step is held back exactly when a Running machine's word decodes to an output
whose argument resolves and `outq` holds `OUT_CAP` values or more; never with `OUT_CAP = none`. -/
def Obligations.BlocksExactlyOnFullOutput : Prop :=
  ∀ s : State,
    (suspension s = some .outputBackpressure ↔
      s.status = .running ∧ (∃ c, s.config.outCap = some c ∧ c ≤ s.outq.length) ∧
        ∃ (a : Operand) (v : Int), s.fetch = .ok (.output a) ∧ readArg s 1 a = .ok v) ∧
    (s.config.outCap = none → suspension s ≠ some .outputBackpressure)

/-- R218: when a step suspends no state changes at all, and the run returns Suspended with its reason. -/
def Obligations.SuspensionChangesNothing : Prop :=
  ∀ (s : State) (r : SuspendReason), suspension s = some r →
    step s = .next s ∧ s.status = .running ∧ ∀ budget, run budget s = (some (.suspended r), s)

/-- R130: once the host offers a value, the suspended input instruction is attempted again and consumes
it. -/
def Obligations.OfferedInputResumes : Prop :=
  ∀ (s : State) (v : Int), suspension s = some .inputStarvation →
    ∃ (dst : Operand) (a1 : Nat), s.fetch = .ok (.input dst) ∧ writeArg s 1 dst = .ok a1 ∧
      step (s.offerInput v) = .next { s with mem := s.mem.write a1 v, inq := [], pc := s.pc + 2 }

/-- R130, R131: once the host takes a value from a channel that held exactly `OUT_CAP` values, the
suspended output instruction is attempted again and its value is appended. -/
def Obligations.TakenOutputResumes : Prop :=
  ∀ (s : State) (x : Int) (rest : List Int), suspension s = some .outputBackpressure →
    s.config.outCap = some (rest.length + 1) → s.outq = x :: rest →
    ∃ (a : Operand) (v : Int), s.fetch = .ok (.output a) ∧ readArg s 1 a = .ok v ∧
      step (s.afterHostOp .takeOutput) = .next { s with outq := rest ++ [v], pc := s.pc + 2 }

/-! ### The step and the whole machine (10_state.md, 30_encoding.md) -/

/-- A step runs the decoded instruction (R75): where the cells at `pc` decode to `i`, `step` is `exec i`. -/
def Obligations.StepExecutesTheDecodedInstr : Prop :=
  ∀ (s : State) (i : Instr), s.status = .running →
    decode (s.mem.read s.pc) (fun k => s.mem.read (s.pc + k)) = .ok i → step s = exec i s

/-- A step runs the instruction whose cells stand at `pc` (R60, R75, R79). -/
def Obligations.StepExecutesTheEncodedInstr : Prop :=
  ∀ (s : State) (i : Instr), s.status = .running → i.wf = true →
    (∀ (k : Nat) (x : Int), (encode i)[k]? = some x → s.mem.read (s.pc + k) = x) →
    step s = exec i s

/-- R63, R75 and the priority of R221: one step of a Running machine is the instruction cycle as the spec's
pseudocode has it, fault by fault and value by value. -/
def Obligations.StepIsTheInstructionCycle : Prop :=
  ∀ s : State, s.status = .running →
    attempt s = Reference.cycle s ∧ step s = .next ((Reference.cycle s).after s)

/-- A step always answers a next state: no state is left without one, and no instruction is refused. -/
def Obligations.EveryStepAnswersAState : Prop :=
  ∀ s : State, ∃ t, step s = .next t

/-- A word placed where the next step fetches is the word it runs, from every state (log entry 7, the
model's choice). -/
def Obligations.PlacedWordIsExecuted : Prop :=
  ∀ (s : State) (nbits w : Nat) (i : Instr), decodeTableWord nbits w = some i →
    step (s.withFetchWord nbits w) = exec i (s.withFetchWord nbits w)

/-- R23: how each instruction that completes advances `pc`, and that a faulted or suspended one leaves
it. -/
def Obligations.PcAdvancesByTheTable : Prop :=
  ∀ (i : Instr) (s : State),
    (∀ t, result i s = .completed t →
      (i.opcode ∈ [.add, .mul, .lessThan, .equals] → t.pc = s.pc + 4) ∧
      (i.opcode ∈ [.input, .output, .adjustRb] → t.pc = s.pc + 2) ∧
      (∀ c target v1 v2, i = .jumpIfTrue c target → readArg s 1 c = .ok v1 →
        readArg s 2 target = .ok v2 → (t.pc : Int) = if v1 ≠ 0 then v2 else s.pc + 3) ∧
      (∀ c target v1 v2, i = .jumpIfFalse c target → readArg s 1 c = .ok v1 →
        readArg s 2 target = .ok v2 → (t.pc : Int) = if v1 = 0 then v2 else s.pc + 3) ∧
      (i = .halt → t.pc = s.pc)) ∧
    (∀ f, result i s = .faulted f → ((result i s).after s).pc = s.pc) ∧
    ∀ r, result i s = .suspended r → ((result i s).after s).pc = s.pc

/-- R192 (and R26): a step that changes `rb` executes an adjust-rb and adds its value; no host operation
changes `rb`; a new machine has `rb = 0`. -/
def Obligations.RbIsPurelyAdditive : Prop :=
  (∀ s t : State, step s = .next t → t.rb ≠ s.rb →
    ∃ (a : Operand) (v : Int), s.fetch = .ok (.adjustRb a) ∧ readArg s 1 a = .ok v ∧ t.rb = s.rb + v) ∧
  (∀ (s : State) (a : Operand) (v : Int), s.status = .running → s.fetch = .ok (.adjustRb a) →
    readArg s 1 a = .ok v → ∃ t, step s = .next t ∧ t.rb = s.rb + v) ∧
  (∀ (s : State) (op : HostOp), (s.afterHostOp op).rb = s.rb) ∧
  ∀ (config : Config) (image inputs : List Int), (State.new config image inputs).rb = 0

/-- R28: the only changes of `status`: Running to Halted when a halt executes, Running to Faulted when the
instruction raises a fault; a stopped machine's never changes; a suspension leaves it Running. -/
def Obligations.StatusTransitions : Prop :=
  (∀ s t : State, s.status = .running → step s = .next t →
    (t.status = .halted ↔ s.fetch = .ok .halt) ∧
    (∀ f, t.status = .faulted f ↔ attempt s = .faulted f) ∧
    (∀ r, suspension s = some r → t.status = .running)) ∧
  (∀ s : State, s.status ≠ .running → step s = .next s) ∧
  ∀ (s : State) (op : HostOp), (s.afterHostOp op).status = s.status

/-- R125: both queues are FIFO over a whole run: what is consumed is a run of the oldest values of `inq`,
and what is emitted stands after every value already in `outq`, in order; an input takes the oldest
value, an output puts its value last. -/
def Obligations.QueuesAreFifo : Prop :=
  (∀ (dst : Operand) (s t : State), result (.input dst) s = .completed t →
    ∃ (v : Int) (a1 : Nat), writeArg s 1 dst = .ok a1 ∧ s.inq = v :: t.inq ∧ t.mem.read a1 = v) ∧
  (∀ (a : Operand) (s t : State), result (.output a) s = .completed t →
    ∃ v : Int, readArg s 1 a = .ok v ∧ t.outq = s.outq ++ [v]) ∧
  ∀ (budget : Nat) (s t : State) (o : Option RunOutcome), run budget s = (o, t) →
    (∃ consumed, s.inq = consumed ++ t.inq) ∧ t.outq = s.outq ++ emittedBetween s t

/-! ### Memory (20_memory.md) and construction (70_reset_and_hazards.md) -/

/-- R42 (with R40, R41): after a write every read of that cell gives the value until the next write to it,
every other cell is as it was, and empty memory reads 0; in every memory, with no side condition. -/
def Obligations.ReadAfterWrite : Prop :=
  (∀ (m : Memory) (a : Nat) (v : Int), (m.write a v).read a = v) ∧
  (∀ (m : Memory) (a c : Nat) (v : Int), c ≠ a → (m.write a v).read c = m.read c) ∧
  (∀ (m : Memory) (a : Nat) (v : Int) (later : List (Nat × Int)), (∀ e ∈ later, e.1 ≠ a) →
    (later.foldl (fun n e => n.write e.1 e.2) (m.write a v)).read a = v) ∧
  ∀ a : Nat, Memory.read [] a = 0

/-- Memories in canonical form that read alike at every address are equal (R45: whether a cell is stored
or implicit is not observable, which the spec marks "derived: from rule R40 and rule R41"). -/
def Obligations.CanonicalMemoriesThatReadAlikeAreEqual : Prop :=
  ∀ m n : Memory, m.wf = true → n.wf = true → (∀ a, m.read a = n.read a) → m = n

/-- R250, R251: a new machine holds the image at 0..N-1 and 0 elsewhere, `pc = 0`, `rb = 0`, Running, the
offered inputs and an empty `outq`. -/
def Obligations.NewMachineHoldsTheImage : Prop :=
  ∀ (config : Config) (image inputs : List Int) (s : State), s = State.new config image inputs →
    (∀ (a : Nat) (x : Int), image[a]? = some x → s.mem.read a = x) ∧
    (∀ a, image.length ≤ a → s.mem.read a = 0) ∧
    s.pc = 0 ∧ s.rb = 0 ∧ s.status = .running ∧ s.inq = inputs ∧ s.outq = []

/-- R253 (which the spec marks "derived: from rule R250 and 30_encoding.md rule R64"): an empty image is
legal and gives a memory of zeros, and the first step raises DecodeFault with reason UnknownOpcode. -/
def Obligations.EmptyImageFaultsAtOnce : Prop :=
  ∀ (config : Config) (inputs : List Int),
    (∀ a, (State.new config [] inputs).mem.read a = 0) ∧
    step (State.new config [] inputs) = .next { State.new config [] inputs with
      status := .faulted { kind := .decodeFault, pc := 0, word := 0, arg := none, addr := none,
                           reason := some .unknownOpcode } }

/-- R57, R58, R59: `peek` reads one cell; `poke` writes one cell and changes nothing else; both are refused
at a negative address, with no state change. -/
def Obligations.PeekAndPoke : Prop :=
  ∀ (s : State) (a v : Int),
    (0 ≤ a → s.peek a = .ok (s.mem.read a.toNat) ∧
      s.poke a v = .ok { s with mem := s.mem.write a.toNat v }) ∧
    (a < 0 → s.peek a = .error (.negativeHostAddress a) ∧
      s.poke a v = .error (.negativeHostAddress a) ∧ s.afterHostOp (.poke a v) = s)

/-- R126, R127: the host appends to the end of `inq` and removes from the front of `outq`, and neither
changes anything else; an offered value is consumed after every value before it. That taking from an
empty `outq` answers no value and changes nothing is the model's choice (log entry 18). -/
def Obligations.HostQueueOperations : Prop :=
  ∀ s : State,
    (∀ v, s.offerInput v = { s with inq := s.inq ++ [v] }) ∧
    (∀ (v w : Int) (rest : List Int) (dst : Operand) (a1 : Nat), writeArg s 1 dst = .ok a1 →
      s.inq ++ [v] = w :: rest →
      exec (.input dst) (s.offerInput v) = .next { s with mem := s.mem.write a1 w, inq := rest, pc := s.pc + 2 }) ∧
    (s.outq = [] → s.takeOutput = none ∧ s.afterHostOp .takeOutput = s) ∧
    ∀ v rest, s.outq = v :: rest →
      s.takeOutput = some (v, { s with outq := rest }) ∧ s.afterHostOp .takeOutput = { s with outq := rest }

/-! ### The invariant -/

/-- The reset state is the machine built from the empty image with no input and the default `OUT_CAP`
(log entry 7, the model's choice of what stands for reset), and the invariant holds of it and of every
new machine. -/
def Obligations.NewMachinesMeetTheInvariant : Prop :=
  State.reset = State.new Config.default [] [] ∧ State.reset.Inv ∧
    ∀ (config : Config) (image inputs : List Int), (State.new config image inputs).Inv

/-- Every step keeps the invariant: memory stays canonical (R45), a fault record is consistent and names
the instruction at `pc` (R212, R222), a bounded channel is never overfilled (R131). -/
def Obligations.StepKeepsTheInvariant : Prop :=
  ∀ s t : State, s.Inv → step s = .next t → t.Inv

/-- Every host operation keeps the invariant, so it holds over a machine's whole life; and nothing
changes the configuration. -/
def Obligations.ReachableStatesMeetTheInvariant : Prop :=
  (∀ (s : State) (op : HostOp), s.Inv → (s.afterHostOp op).Inv) ∧
  (∀ s : State, Reachable s → s.Inv) ∧
  (∀ s t : State, step s = .next t → t.config = s.config) ∧
  ∀ (s : State) (op : HostOp), (s.afterHostOp op).config = s.config

/-! ### The run (60_exceptions.md) -/

/-- R210, R225, R233: what an outcome says of the state the run ends in, and that running again from there
returns the same at once. -/
def Obligations.RunOutcomeDescribesTheEnd : Prop :=
  ∀ (budget : Nat) (s t : State) (o : RunOutcome), run budget s = (some o, t) →
    (o = .halted → t.status = .halted) ∧
    (∀ k, o = .faulted k → ∃ f, t.status = .faulted f ∧ f.kind = k) ∧
    (∀ r, o = .suspended r → t.status = .running ∧ suspension t = some r) ∧
    ∀ again, run again t = (some o, t)

/-- R233, R235: a run ends at once where an outcome is due, which it is unless the machine is Running and
its next step does not suspend; otherwise it executes the step and goes on. An exhausted budget is "no
outcome yet": a run that has an outcome has the same one, in the same state, under every larger budget,
and one without an outcome goes on from where it stopped (the budget is the model's, log entry 17). -/
def Obligations.RunBudgetIsNoOutcome : Prop :=
  (∀ s : State, s.runEnd? = none ↔ s.status = .running ∧ suspension s = none) ∧
  (∀ (budget : Nat) (s : State) (o : RunOutcome), s.runEnd? = some o → run budget s = (some o, s)) ∧
  (∀ s : State, s.runEnd? = none → run 0 s = (none, s)) ∧
  (∀ (budget : Nat) (s t : State), s.runEnd? = none → step s = .next t →
    run (budget + 1) s = run budget t) ∧
  (∀ (budget more : Nat) (s t : State) (o : RunOutcome), run budget s = (some o, t) →
    run (budget + more) s = (some o, t)) ∧
  ∀ (budget more : Nat) (s t : State), run budget s = (none, t) →
    run (budget + more) s = run more t

/-! ### Several machines (60_exceptions.md) -/

/-- R241 (which the spec marks as derived from R236, R237, R239, R75, R121, R122): global steps of two different machines commute, and neither disables the other. -/
def Obligations.GlobalStepsCommute : Prop :=
  ∀ (n n1 n2 : Network) (i j : Nat), n.wired = true → i ≠ j →
    n.globalStep i = some n1 → n.globalStep j = some n2 →
    ∃ m, n1.globalStep j = some m ∧ n2.globalStep i = some m

/-- R241 (which the spec marks as derived from R236, R237, R239, R75, R121, R122): every network state in which no machine can step is the same, with the same sequence of values
passed through each channel, whatever order of global steps led to it. -/
def Obligations.StuckNetworkIsIndependentOfTheSchedule : Prop :=
  ∀ (n n1 n2 : Network) (first second : List Nat), n.wired = true →
    n.runSchedule first = some n1 → n.runSchedule second = some n2 →
    n1.stuck = true → n2.stuck = true → n1 = n2 ∧ first.length = second.length

/-- R236, R239: a global step of one machine leaves every other machine, and every channel that is not
its own, as they were. -/
def Obligations.GlobalStepTouchesOnlyItsMachine : Prop :=
  ∀ (n m : Network) (i : Nat), n.globalStep i = some m →
    (∀ j, j ≠ i → m.machines[j]? = n.machines[j]?) ∧
    (∀ (k : Nat) (c : Channel), n.channels[k]? = some c → c.producer ≠ i → c.consumer ≠ i →
      m.channels[k]? = some c) ∧
    m.machines.length = n.machines.length ∧ m.channels.length = n.channels.length

/-- R239: machine `i` can take a global step exactly when it is Running and its next step does not
suspend, as it stands with the queues of its channels; and the global step executes that step. Its
memory, `pc`, `rb` and status are then those the step leaves, and so is a queue that no channel stands
for; a queue that a channel stands for is kept inert (the model's form, log entry 13). -/
def Obligations.GlobalStepIsOneStepOfItsMachine : Prop :=
  ∀ (n : Network) (i : Nat),
    ((∃ m, n.globalStep i = some m) ↔
      ∃ v, n.view? i = some v ∧ v.status = .running ∧ suspension v = none) ∧
    ∀ (m : Network) (v t : State), n.globalStep i = some m → n.view? i = some v → step v = .next t →
      ∃ u, m.machines[i]? = some u ∧ u.mem = t.mem ∧ u.pc = t.pc ∧ u.rb = t.rb ∧ u.status = t.status ∧
        u.config = t.config ∧ (n.inChannel? i = none → u.inq = t.inq) ∧
        (n.outChannel? i = none → u.outq = t.outq)

/-- R237: a channel is FIFO. In a global step in which machine `i`, with the queues of its channels,
goes from `v` to `t`, the channel it consumes from loses from its front exactly the values the step took,
the channel it produces into gains at its end exactly the values the step emitted, and no other channel
changes. So what has been taken out and what is still queued are, together and in order, what has been
emitted, and every global step keeps it so (the record of emitted values is the model's, log entry 13). -/
def Obligations.ChannelsAreFifo : Prop :=
  ∀ (n m : Network) (i : Nat) (v t : State) (k : Nat) (c : Channel), n.wired = true →
    n.globalStep i = some m → n.view? i = some v → step v = .next t → n.channels[k]? = some c →
    ∃ (d : Channel) (more put : List Int), m.channels[k]? = some d ∧
      d.producer = c.producer ∧ d.consumer = c.consumer ∧
      (put = if c.producer = i then emittedBetween v t else []) ∧
      (if c.consumer = i then v.inq = c.queue ∧ c.queue = more ++ t.inq else more = []) ∧
      c.queue ++ put = more ++ d.queue ∧
      d.emitted = c.emitted ++ put ∧
      ∀ taken, c.emitted = taken ++ c.queue → d.emitted = taken ++ more ++ d.queue

/-- R240: a network is deadlocked exactly when no machine can take a step and at least one is Running;
each such machine is then suspended, and no schedule of steps gets anywhere. -/
def Obligations.DeadlockedNetworkWaits : Prop :=
  ∀ n : Network,
    (n.deadlocked = true ↔
      (∀ i, n.globalStep i = none) ∧ ∃ m ∈ n.machines, m.status = .running) ∧
    (n.deadlocked = true → ∀ (schedule : List Nat) (n' : Network), n.runSchedule schedule = some n' →
      schedule = [] ∧ n' = n) ∧
    (n.deadlocked = true → ∀ (i : Nat) (m : State), n.machines[i]? = some m → m.status = .running →
      ∃ v r, n.view? i = some v ∧ suspension v = some r)
end

