-- ==== Sys2Proof/Laws/Decode.lean ====
section
/-! SUPPORT. The small laws of the encoding tables (30_encoding.md rules R61 to R66) and what the loops
of the decoder answer (R63). -/

namespace Sys2Proof

@[simp] theorem Mode.ofDigit?_toDigit (m : Mode) : Mode.ofDigit? m.toDigit = some m := by
  cases m <;> rfl

theorem Mode.toDigit_lt (m : Mode) : m.toDigit < 3 := by cases m <;> decide

theorem Mode.ofDigit?_eq_some {d : Nat} {m : Mode} : Mode.ofDigit? d = some m ↔ d = m.toDigit := by
  constructor
  · intro h
    unfold Mode.ofDigit? at h
    split at h <;> cases h <;> rfl
  · rintro rfl; simp

theorem Mode.ofDigit?_eq_none {d : Nat} : Mode.ofDigit? d = none ↔ 3 ≤ d := by
  rcases d with _ | _ | _ | d <;> simp [Mode.ofDigit?]

@[simp] theorem Opcode.ofNumber?_number (op : Opcode) : Opcode.ofNumber? op.number = some op := by
  cases op <;> rfl

theorem Opcode.number_lt (op : Opcode) : op.number < 100 := by cases op <;> decide

theorem Opcode.ofNumber?_eq_some {n : Nat} {op : Opcode} :
    Opcode.ofNumber? n = some op ↔ n = op.number := by
  constructor
  · intro h
    unfold Opcode.ofNumber? at h
    split at h <;> cases h <;> rfl
  · rintro rfl; simp

@[simp] theorem Instr.operands_length (i : Instr) : i.operands.length = i.opcode.arity := by
  cases i <;> rfl

@[simp] theorem encode_length (i : Instr) : (encode i).length = i.opcode.length := by
  simp [encode, Opcode.length, Nat.add_comm]

/-- The modes the decoder reads, argument by argument (R61, R63). -/
theorem decodeModes_ok_iff {w k n : Nat} {ms : List Mode} :
    decodeModes w k n = .ok ms ↔
      ms.length = n ∧ ∀ j, (h : j < ms.length) → Mode.ofDigit? (digit w (k + j + 1)) = some ms[j] := by
  induction n generalizing k ms with
  | zero =>
    constructor
    · intro h; cases h; simp
    · rintro ⟨h, -⟩; rw [List.length_eq_zero_iff.1 h]; rfl
  | succ n ih =>
    simp only [decodeModes]
    cases hm : Mode.ofDigit? (digit w (k + 1)) with
    | none =>
      constructor
      · intro h; cases h
      · rintro ⟨h, hall⟩
        have := hall 0 (by omega)
        simp [hm] at this
    | some m =>
      cases hr : decodeModes w (k + 1) n with
      | error e =>
        constructor
        · intro h; cases h
        · rintro ⟨h, hall⟩
          cases ms with
          | nil => cases h
          | cons m' ms =>
            exfalso
            have : decodeModes w (k + 1) n = .ok ms := ih.2 ⟨by simpa using h, fun j hj => by
              have := hall (j + 1) (by simpa using hj)
              simpa [Nat.add_assoc, Nat.add_comm 1 j] using this⟩
            simp [hr] at this
      | ok rest =>
        have hrest := ih.1 hr
        constructor
        · intro h
          cases h
          refine ⟨by simp [hrest.1], fun j hj => ?_⟩
          cases j with
          | zero => simpa using hm
          | succ j =>
            have := hrest.2 j (by simpa using hj)
            simpa [Nat.add_assoc, Nat.add_comm 1 j] using this
        · rintro ⟨h, hall⟩
          cases ms with
          | nil => cases h
          | cons m' ms =>
            have h0 := hall 0 (by simp)
            have : decodeModes w (k + 1) n = .ok ms := ih.2 ⟨by simpa using h, fun j hj => by
              have := hall (j + 1) (by simpa using hj)
              simpa [Nat.add_assoc, Nat.add_comm 1 j] using this⟩
            rw [hr] at this
            cases this
            simp [hm] at h0
            simp [h0]

/-- The argument the decoder blames is the first with a bad mode digit (R67). -/
theorem decodeModes_error_iff {w k n e : Nat} :
    decodeModes w k n = .error e ↔
      k ≤ e ∧ e < k + n ∧ 3 ≤ digit w (e + 1) ∧ ∀ j, k ≤ j → j < e → digit w (j + 1) < 3 := by
  induction n generalizing k with
  | zero => simp [decodeModes]; omega
  | succ n ih =>
    simp only [decodeModes]
    cases hm : Mode.ofDigit? (digit w (k + 1)) with
    | none =>
      have h3 := Mode.ofDigit?_eq_none.1 hm
      constructor
      · intro h; cases h; exact ⟨le_refl _, by omega, h3, fun j _ _ => by omega⟩
      · rintro ⟨h1, -, -, hall⟩
        rcases Nat.lt_or_ge k e with hlt | hge
        · have := hall k (le_refl _) hlt; omega
        · have : k = e := by omega
          rw [this]
    | some m =>
      have hlt : digit w (k + 1) < 3 := by
        rw [Mode.ofDigit?_eq_some.1 hm]; exact m.toDigit_lt
      have step : decodeModes w (k + 1) n = .error e ↔
          k ≤ e ∧ e < k + (n + 1) ∧ 3 ≤ digit w (e + 1) ∧ ∀ j, k ≤ j → j < e → digit w (j + 1) < 3 := by
        rw [ih]
        constructor
        · rintro ⟨h1, h2, h3, hall⟩
          refine ⟨by omega, by omega, h3, fun j hj hje => ?_⟩
          rcases Nat.lt_or_ge k j with h | h
          · exact hall j (by omega) hje
          · have : j = k := by omega
            rw [this]; exact hlt
        · rintro ⟨h1, h2, h3, hall⟩
          have : e ≠ k := by rintro rfl; omega
          exact ⟨by omega, by omega, h3, fun j hj hje => hall j (by omega) hje⟩
      rw [← step]
      cases decodeModes w (k + 1) n <;> simp

/-- When the decoder accepts a word (R63): it is not negative, it names an opcode, the mode digits of its
arguments are legal, and its write argument is not immediate. -/
theorem decodeWord_ok_iff {w : Int} {op : Opcode} {ms : List Mode} :
    decodeWord w = .ok (op, ms) ↔
      0 ≤ w ∧ Opcode.ofNumber? (w.toNat % 100) = some op ∧ decodeModes w.toNat 1 op.arity = .ok ms ∧
        ∀ k, op.writePosition? = some k → ms[k-1]? ≠ some .immediate := by
  unfold decodeWord checkWriteMode
  by_cases h0 : w < 0
  · simp [h0]
  · simp only [h0, if_false]
    cases h1 : Opcode.ofNumber? (w.toNat % 100) with
    | none => simp
    | some op' =>
      dsimp only
      cases h2 : decodeModes w.toNat 1 op'.arity with
      | error e =>
        simp only [reduceCtorEq, false_iff, not_and]
        rintro - h; cases h; rw [h2]; simp
      | ok ms' =>
        dsimp only
        constructor
        · intro h
          cases h3 : op'.writePosition? with
          | none => rw [h3] at h; cases h; exact ⟨by omega, rfl, h2, by simp [h3]⟩
          | some k =>
            rw [h3] at h; dsimp only at h
            split at h
            · cases h
            · next hk => cases h; exact ⟨by omega, rfl, h2, by rintro k' hk'; rw [h3] at hk'; cases hk'; exact hk⟩
        · rintro ⟨-, h, h', h3⟩
          cases h; rw [h2] at h'; cases h'
          cases h4 : op.writePosition? with
          | none => rfl
          | some k => simp [h3 k h4]

/-- The mode digits of an instruction take one decimal digit each. -/
theorem modeDigits_lt (os : List Operand) : modeDigits os < 10 ^ os.length := by
  induction os with
  | nil => simp [modeDigits]
  | cons o os ih =>
    have := o.mode.toDigit_lt
    simp only [modeDigits, List.length_cons, pow_succ]
    omega

/-- The j-th mode digit of a list of arguments is the mode of its j-th argument. -/
theorem digit_modeDigits (os : List Operand) (j : Nat) (h : j < os.length) :
    digit (modeDigits os) j = os[j].mode.toDigit := by
  induction os generalizing j with
  | nil => cases h
  | cons o os ih =>
    have := o.mode.toDigit_lt
    cases j with
    | zero => simp [digit, modeDigits]; omega
    | succ j =>
      have hdiv : (o.mode.toDigit + 10 * modeDigits os) / 10 = modeDigits os := by omega
      have := ih j (by simpa using h)
      simpa [digit, modeDigits, pow_succ', ← Nat.div_div_eq_div_mul, hdiv] using this

/-- The word of an instruction: its opcode in the two low digits, its modes above (R61, R79). -/
theorem Instr.word_mod (i : Instr) : i.word % 100 = i.opcode.number := by
  have := i.opcode.number_lt
  simp only [Instr.word]; omega

theorem Instr.digit_word (i : Instr) (j : Nat) : digit i.word (j + 2) = digit (modeDigits i.operands) j := by
  have h := i.opcode.number_lt
  have hdiv : i.word / 100 = modeDigits i.operands := by simp only [Instr.word]; omega
  have : (10 : Nat) ^ (j + 2) = 100 * 10 ^ j := by ring
  simp [digit, this, ← Nat.div_div_eq_div_mul, hdiv]

/-- The four ways a word is rejected, each with the name of its first failing check (R63, R81). -/
theorem decode_error_cases {w : Int} {lit : Nat → Int} {e : DecodeError} (h : decode w lit = .error e) :
    (w < 0 ∧ e = .negativeWord) ∨
    (0 ≤ w ∧ Opcode.ofNumber? (w.toNat % 100) = none ∧ e = .unknownOpcode) ∨
    (∃ op k, 0 ≤ w ∧ Opcode.ofNumber? (w.toNat % 100) = some op ∧
      decodeModes w.toNat 1 op.arity = .error k ∧ e = .badMode k) ∨
    ∃ op ms k, 0 ≤ w ∧ Opcode.ofNumber? (w.toNat % 100) = some op ∧
      decodeModes w.toNat 1 op.arity = .ok ms ∧ op.writePosition? = some k ∧
      ms[k - 1]? = some .immediate ∧ e = .invalidWriteTarget k := by
  have h : decodeWord w = .error e := by
    unfold decode at h; cases h' : decodeWord w <;> simp_all
  unfold decodeWord checkWriteMode at h
  by_cases h0 : w < 0
  · simp [h0] at h; exact .inl ⟨h0, h.symm⟩
  · simp only [h0, if_false] at h
    have h0 : 0 ≤ w := by omega
    cases h1 : Opcode.ofNumber? (w.toNat % 100) with
    | none => simp [h1] at h; exact .inr (.inl ⟨h0, rfl, h.symm⟩)
    | some op =>
      simp only [h1] at h
      cases h2 : decodeModes w.toNat 1 op.arity with
      | error k => simp [h2] at h; exact .inr (.inr (.inl ⟨op, k, h0, rfl, h2, h.symm⟩))
      | ok ms =>
        simp only [h2] at h
        cases h3 : op.writePosition? with
        | none => simp [h3] at h
        | some k =>
          simp only [h3] at h
          split at h
          · next h4 => cases h; exact .inr (.inr (.inr ⟨op, ms, k, h0, rfl, h2, h3, h4, rfl⟩))
          · cases h

end Sys2Proof
end

