-- ==== Sys2Proof/Laws/Flags.lean ====
section
/-! SUPPORT. What the comparison values and the jump conditions are, in terms of the integers
(43_compare.md, 42_jumps.md). -/

namespace Sys2Proof.Machine

theorem lessThanValue_eq (v1 v2 : Int) : lessThanValue v1 v2 = if v1 < v2 then 1 else 0 := by
  simp [lessThanValue, truthValue]

theorem equalsValue_eq (v1 v2 : Int) : equalsValue v1 v2 = if v1 = v2 then 1 else 0 := by
  simp [equalsValue, truthValue]

@[simp] theorem condNonZero_iff (v : Int) : condNonZero v = true ↔ v ≠ 0 := by simp [condNonZero]

@[simp] theorem condZero_iff (v : Int) : condZero v = true ↔ v = 0 := by simp [condZero]

end Sys2Proof.Machine
end

