-- ==== Sys2Proof/Laws/Memory.lean ====
section
/-! SUPPORT. The laws of memory (20_memory.md): a read after a write, and that every memory operation
keeps the canonical form. -/

namespace Sys2Proof.Machine

@[simp] theorem Memory.read_nil (a : Nat) : Memory.read [] a = 0 := rfl

theorem Memory.read_cons (b : Nat) (x : Int) (m : Memory) (a : Nat) :
    Memory.read ((b, x) :: m) a = if b = a then x else Memory.read m a := rfl

/-! ### Reading after an operation -/

theorem Memory.read_erase (m : Memory) (a c : Nat) :
    (m.erase a).read c = if c = a then 0 else m.read c := by
  induction m with
  | nil => simp [Memory.erase]
  | cons e m ih =>
    obtain ⟨b, x⟩ := e
    simp only [Memory.erase, Memory.read_cons]
    by_cases hb : b = a
    · subst hb
      by_cases hc : c = b
      · subst hc; simpa using ih
      · simp [ih, hc, Ne.symm hc]
    · by_cases hc : c = a
      · subst hc; simp [hb, ih, Memory.read_cons]
      · simp [hb, hc, ih, Memory.read_cons]

theorem Memory.read_insert (m : Memory) (a : Nat) (v : Int) (c : Nat)
    (h : m.read a = 0) : (m.insert a v).read c = if c = a then v else m.read c := by
  induction m with
  | nil => simp [Memory.insert, Memory.read_cons, eq_comm]
  | cons e m ih =>
    obtain ⟨b, x⟩ := e
    simp only [Memory.insert]
    by_cases hba : b < a
    · have hne : b ≠ a := Nat.ne_of_lt hba
      rw [Memory.read_cons, if_neg hne] at h
      simp only [if_pos hba, Memory.read_cons, ih h]
      by_cases hbc : b = c
      · subst hbc; simp [hne]
      · simp [hbc]
    · simp only [if_neg hba, Memory.read_cons (b := a), eq_comm (a := a)]

/-- What a read gives after a write (R41, R42), in every memory, canonical or not. -/
theorem Memory.read_write (m : Memory) (a : Nat) (v : Int) (c : Nat) :
    (m.write a v).read c = if c = a then v else m.read c := by
  unfold Memory.write
  split
  · next h => simp [Memory.read_erase, h]
  · rw [Memory.read_insert _ _ _ _ (by simp [Memory.read_erase]), Memory.read_erase]
    split <;> simp_all

@[simp] theorem Memory.read_write_same (m : Memory) (a : Nat) (v : Int) :
    (m.write a v).read a = v := by simp [Memory.read_write]

theorem Memory.read_write_other (m : Memory) {a c : Nat} (v : Int) (h : c ≠ a) :
    (m.write a v).read c = m.read c := by simp [Memory.read_write, h]

/-- What a read gives after an image is loaded from address `a` on (R250). -/
theorem Memory.read_load (vs : List Int) (m : Memory) (a c : Nat) :
    (m.load a vs).read c =
      if a ≤ c ∧ c < a + vs.length then vs.getD (c - a) 0 else m.read c := by
  induction vs generalizing m a with
  | nil => simp [Memory.load]
  | cons v vs ih =>
    simp only [Memory.load, ih, Memory.read_write, List.length_cons]
    by_cases hac : c = a
    · subst hac; simp
    · by_cases hlt : a + 1 ≤ c ∧ c < a + 1 + vs.length
      · have : a ≤ c ∧ c < a + (vs.length + 1) := by omega
        obtain ⟨d, hd⟩ : ∃ d, c - a = d + 1 := ⟨c - a - 1, by omega⟩
        have hd' : c - (a + 1) = d := by omega
        simp [hlt, this, hd, hd']
      · have : ¬ (a ≤ c ∧ c < a + (vs.length + 1)) := by omega
        rw [if_neg hlt, if_neg this, if_neg hac]

/-! ### The canonical form -/

/-- Every listed address lies above the bound, if there is one. -/
def Memory.boundedBelow (lo : Option Nat) (a : Nat) : Prop :=
  ∀ b, lo = some b → b < a

theorem Memory.risesAbove_cons (lo : Option Nat) (a : Nat) (x : Int) (m : Memory) :
    Memory.risesAbove lo ((a, x) :: m) = true ↔
      Memory.boundedBelow lo a ∧ Memory.risesAbove (some a) m = true := by
  cases lo <;> simp [Memory.risesAbove, Memory.boundedBelow]

theorem Memory.boundedBelow_trans {lo : Option Nat} {a b : Nat}
    (h : Memory.boundedBelow lo a) (hab : a < b) : Memory.boundedBelow lo b :=
  fun c hc => Nat.lt_trans (h c hc) hab

theorem Memory.risesAbove_weaken {lo : Option Nat} {a : Nat} {m : Memory}
    (h : Memory.boundedBelow lo a) (hm : Memory.risesAbove (some a) m = true) :
    Memory.risesAbove lo m = true := by
  cases m with
  | nil => rfl
  | cons e m =>
    obtain ⟨b, x⟩ := e
    rw [Memory.risesAbove_cons] at hm ⊢
    exact ⟨Memory.boundedBelow_trans h (hm.1 a rfl), hm.2⟩

theorem Memory.risesAbove_erase {lo : Option Nat} {m : Memory} (a : Nat)
    (h : Memory.risesAbove lo m = true) : Memory.risesAbove lo (m.erase a) = true := by
  induction m generalizing lo with
  | nil => rfl
  | cons e m ih =>
    obtain ⟨b, x⟩ := e
    rw [Memory.risesAbove_cons] at h
    simp only [Memory.erase]
    split
    · exact ih (Memory.risesAbove_weaken h.1 h.2)
    · exact (Memory.risesAbove_cons ..).2 ⟨h.1, ih h.2⟩

theorem Memory.risesAbove_insert {lo : Option Nat} {m : Memory} {a : Nat} (v : Int)
    (hlo : Memory.boundedBelow lo a) (h : Memory.risesAbove lo (m.erase a) = true) :
    Memory.risesAbove lo ((m.erase a).insert a v) = true := by
  have free : ∀ (m' : Memory) (lo : Option Nat), Memory.boundedBelow lo a →
      Memory.risesAbove lo m' = true → (∀ e ∈ m', e.1 ≠ a) →
      Memory.risesAbove lo (m'.insert a v) = true := by
    intro m'
    induction m' with
    | nil => intro lo hlo _ _; exact (Memory.risesAbove_cons ..).2 ⟨hlo, rfl⟩
    | cons e m' ih =>
      intro lo hlo hm hne
      obtain ⟨b, x⟩ := e
      rw [Memory.risesAbove_cons] at hm
      simp only [Memory.insert]
      split
      · next hba =>
        refine (Memory.risesAbove_cons ..).2 ⟨hm.1, ih _ ?_ hm.2 ?_⟩
        · intro c hc; cases hc; exact hba
        · exact fun e he => hne e (List.mem_cons_of_mem _ he)
      · next hba =>
        have hb : b ≠ a := hne (b, x) (List.mem_cons_self ..)
        refine (Memory.risesAbove_cons ..).2 ⟨hlo, (Memory.risesAbove_cons ..).2 ⟨?_, hm.2⟩⟩
        intro c hc; cases hc; omega
  refine free _ _ hlo h ?_
  clear h hlo free
  induction m with
  | nil => simp [Memory.erase]
  | cons e m ih =>
    obtain ⟨b, x⟩ := e
    simp only [Memory.erase]
    split
    · exact ih
    · next hb =>
      intro e he
      rcases List.mem_cons.1 he with rfl | he
      · exact hb
      · exact ih e he

theorem Memory.mem_erase {m : Memory} {a : Nat} {e : Cell} (h : e ∈ m.erase a) : e ∈ m := by
  induction m with
  | nil => exact h
  | cons d m ih =>
    obtain ⟨b, x⟩ := d
    simp only [Memory.erase] at h
    split at h
    · exact List.mem_cons_of_mem _ (ih h)
    · rcases List.mem_cons.1 h with rfl | h
      · exact List.mem_cons_self ..
      · exact List.mem_cons_of_mem _ (ih h)

theorem Memory.mem_insert {m : Memory} {a : Nat} {v : Int} {e : Cell}
    (h : e ∈ m.insert a v) : e = (a, v) ∨ e ∈ m := by
  induction m with
  | nil => simpa [Memory.insert] using h
  | cons d m ih =>
    obtain ⟨b, x⟩ := d
    simp only [Memory.insert] at h
    split at h
    · rcases List.mem_cons.1 h with rfl | h
      · exact .inr (List.mem_cons_self ..)
      · exact (ih h).imp id (List.mem_cons_of_mem _)
    · exact List.mem_cons.1 h

theorem Memory.wf_iff (m : Memory) :
    m.wf = true ↔ Memory.risesAbove none m = true ∧ ∀ e ∈ m, e.2 ≠ 0 := by
  simp [Memory.wf]

@[simp] theorem Memory.wf_nil : Memory.wf [] = true := rfl

/-- A write keeps the canonical form. -/
theorem Memory.wf_write {m : Memory} (h : m.wf = true) (a : Nat) (v : Int) :
    (m.write a v).wf = true := by
  rw [Memory.wf_iff] at h ⊢
  have he := Memory.risesAbove_erase a h.1
  unfold Memory.write
  split
  · exact ⟨he, fun e hm => h.2 e (Memory.mem_erase hm)⟩
  · next hv =>
    refine ⟨Memory.risesAbove_insert v (fun _ hb => nomatch hb) he, fun e hm => ?_⟩
    rcases Memory.mem_insert hm with rfl | hm
    · exact hv
    · exact h.2 e (Memory.mem_erase hm)

/-- Loading an image keeps the canonical form. -/
theorem Memory.wf_load {m : Memory} (h : m.wf = true) (a : Nat) (vs : List Int) :
    (m.load a vs).wf = true := by
  induction vs generalizing m a with
  | nil => exact h
  | cons v vs ih => exact ih (Memory.wf_write h a v) (a + 1)

end Sys2Proof.Machine
end

