-- ==== Sys2Proof/Laws/State.lean ====
section
/-! SUPPORT. One lemma per field per update of the state, so that no later proof unfolds an update. -/

namespace Sys2Proof.Machine

@[simp] theorem State.writeMem_mem (s : State) (a : Nat) (v : Int) : (s.writeMem a v).mem = s.mem.write a v := rfl
@[simp] theorem State.writeMem_pc (s : State) (a : Nat) (v : Int) : (s.writeMem a v).pc = s.pc := rfl
@[simp] theorem State.writeMem_rb (s : State) (a : Nat) (v : Int) : (s.writeMem a v).rb = s.rb := rfl
@[simp] theorem State.writeMem_status (s : State) (a : Nat) (v : Int) : (s.writeMem a v).status = s.status := rfl
@[simp] theorem State.writeMem_inq (s : State) (a : Nat) (v : Int) : (s.writeMem a v).inq = s.inq := rfl
@[simp] theorem State.writeMem_outq (s : State) (a : Nat) (v : Int) : (s.writeMem a v).outq = s.outq := rfl
@[simp] theorem State.writeMem_config (s : State) (a : Nat) (v : Int) : (s.writeMem a v).config = s.config := rfl

@[simp] theorem State.setPc_mem (s : State) (t : Nat) : (s.setPc t).mem = s.mem := rfl
@[simp] theorem State.setPc_pc (s : State) (t : Nat) : (s.setPc t).pc = t := rfl
@[simp] theorem State.setPc_rb (s : State) (t : Nat) : (s.setPc t).rb = s.rb := rfl
@[simp] theorem State.setPc_status (s : State) (t : Nat) : (s.setPc t).status = s.status := rfl
@[simp] theorem State.setPc_inq (s : State) (t : Nat) : (s.setPc t).inq = s.inq := rfl
@[simp] theorem State.setPc_outq (s : State) (t : Nat) : (s.setPc t).outq = s.outq := rfl
@[simp] theorem State.setPc_config (s : State) (t : Nat) : (s.setPc t).config = s.config := rfl

@[simp] theorem State.advance_mem (s : State) (k : Nat) : (s.advance k).mem = s.mem := rfl
@[simp] theorem State.advance_pc (s : State) (k : Nat) : (s.advance k).pc = s.pc + k := rfl
@[simp] theorem State.advance_rb (s : State) (k : Nat) : (s.advance k).rb = s.rb := rfl
@[simp] theorem State.advance_status (s : State) (k : Nat) : (s.advance k).status = s.status := rfl
@[simp] theorem State.advance_inq (s : State) (k : Nat) : (s.advance k).inq = s.inq := rfl
@[simp] theorem State.advance_outq (s : State) (k : Nat) : (s.advance k).outq = s.outq := rfl
@[simp] theorem State.advance_config (s : State) (k : Nat) : (s.advance k).config = s.config := rfl

@[simp] theorem State.addRb_mem (s : State) (v : Int) : (s.addRb v).mem = s.mem := rfl
@[simp] theorem State.addRb_pc (s : State) (v : Int) : (s.addRb v).pc = s.pc := rfl
@[simp] theorem State.addRb_rb (s : State) (v : Int) : (s.addRb v).rb = s.rb + v := rfl
@[simp] theorem State.addRb_status (s : State) (v : Int) : (s.addRb v).status = s.status := rfl
@[simp] theorem State.addRb_inq (s : State) (v : Int) : (s.addRb v).inq = s.inq := rfl
@[simp] theorem State.addRb_outq (s : State) (v : Int) : (s.addRb v).outq = s.outq := rfl
@[simp] theorem State.addRb_config (s : State) (v : Int) : (s.addRb v).config = s.config := rfl

@[simp] theorem State.setInq_mem (s : State) (q : List Int) : (s.setInq q).mem = s.mem := rfl
@[simp] theorem State.setInq_pc (s : State) (q : List Int) : (s.setInq q).pc = s.pc := rfl
@[simp] theorem State.setInq_rb (s : State) (q : List Int) : (s.setInq q).rb = s.rb := rfl
@[simp] theorem State.setInq_status (s : State) (q : List Int) : (s.setInq q).status = s.status := rfl
@[simp] theorem State.setInq_inq (s : State) (q : List Int) : (s.setInq q).inq = q := rfl
@[simp] theorem State.setInq_outq (s : State) (q : List Int) : (s.setInq q).outq = s.outq := rfl
@[simp] theorem State.setInq_config (s : State) (q : List Int) : (s.setInq q).config = s.config := rfl

@[simp] theorem State.emit_mem (s : State) (v : Int) : (s.emit v).mem = s.mem := rfl
@[simp] theorem State.emit_pc (s : State) (v : Int) : (s.emit v).pc = s.pc := rfl
@[simp] theorem State.emit_rb (s : State) (v : Int) : (s.emit v).rb = s.rb := rfl
@[simp] theorem State.emit_status (s : State) (v : Int) : (s.emit v).status = s.status := rfl
@[simp] theorem State.emit_inq (s : State) (v : Int) : (s.emit v).inq = s.inq := rfl
@[simp] theorem State.emit_outq (s : State) (v : Int) : (s.emit v).outq = s.outq ++ [v] := rfl
@[simp] theorem State.emit_config (s : State) (v : Int) : (s.emit v).config = s.config := rfl

@[simp] theorem State.stop_mem (s : State) : s.stop.mem = s.mem := rfl
@[simp] theorem State.stop_pc (s : State) : s.stop.pc = s.pc := rfl
@[simp] theorem State.stop_rb (s : State) : s.stop.rb = s.rb := rfl
@[simp] theorem State.stop_status (s : State) : s.stop.status = .halted := rfl
@[simp] theorem State.stop_inq (s : State) : s.stop.inq = s.inq := rfl
@[simp] theorem State.stop_outq (s : State) : s.stop.outq = s.outq := rfl
@[simp] theorem State.stop_config (s : State) : s.stop.config = s.config := rfl

@[simp] theorem State.takeFault_mem (s : State) (f : FaultRecord) : (s.takeFault f).mem = s.mem := rfl
@[simp] theorem State.takeFault_pc (s : State) (f : FaultRecord) : (s.takeFault f).pc = s.pc := rfl
@[simp] theorem State.takeFault_rb (s : State) (f : FaultRecord) : (s.takeFault f).rb = s.rb := rfl
@[simp] theorem State.takeFault_status (s : State) (f : FaultRecord) : (s.takeFault f).status = .faulted f := rfl
@[simp] theorem State.takeFault_inq (s : State) (f : FaultRecord) : (s.takeFault f).inq = s.inq := rfl
@[simp] theorem State.takeFault_outq (s : State) (f : FaultRecord) : (s.takeFault f).outq = s.outq := rfl
@[simp] theorem State.takeFault_config (s : State) (f : FaultRecord) : (s.takeFault f).config = s.config := rfl

/-- Two states with equal fields are equal. -/
theorem State.ext_fields {s t : State} (h1 : s.mem = t.mem) (h2 : s.pc = t.pc) (h3 : s.rb = t.rb)
    (h4 : s.status = t.status) (h5 : s.inq = t.inq) (h6 : s.outq = t.outq)
    (h7 : s.config = t.config) : s = t := by
  cases s; cases t; simp_all

@[simp] theorem State.currentWord_eq (s : State) : s.currentWord = s.mem.read s.pc := rfl

@[simp] theorem State.decodeFault_pc (s : State) (r : DecodeReason) : (s.decodeFault r).pc = s.pc := rfl
@[simp] theorem State.decodeFault_word (s : State) (r : DecodeReason) :
    (s.decodeFault r).word = s.mem.read s.pc := rfl
@[simp] theorem State.decodeFault_kind (s : State) (r : DecodeReason) :
    (s.decodeFault r).kind = .decodeFault := rfl
@[simp] theorem State.invalidWriteTarget_pc (s : State) (k : Nat) : (s.invalidWriteTarget k).pc = s.pc := rfl
@[simp] theorem State.invalidWriteTarget_word (s : State) (k : Nat) :
    (s.invalidWriteTarget k).word = s.mem.read s.pc := rfl
@[simp] theorem State.invalidWriteTarget_kind (s : State) (k : Nat) :
    (s.invalidWriteTarget k).kind = .invalidWriteTarget := rfl
@[simp] theorem State.addressFault_pc (s : State) (k : Nat) (a : Int) : (s.addressFault k a).pc = s.pc := rfl
@[simp] theorem State.addressFault_word (s : State) (k : Nat) (a : Int) :
    (s.addressFault k a).word = s.mem.read s.pc := rfl
@[simp] theorem State.addressFault_kind (s : State) (k : Nat) (a : Int) :
    (s.addressFault k a).kind = .addressFault := rfl

@[simp] theorem StepResult.after_completed (s t : State) : (StepResult.completed t).after s = t := rfl
@[simp] theorem StepResult.after_faulted (s : State) (f : FaultRecord) :
    (StepResult.faulted f).after s = s.takeFault f := rfl
@[simp] theorem StepResult.after_suspended (s : State) (r : SuspendReason) :
    (StepResult.suspended r).after s = s := rfl
@[simp] theorem StepResult.outcome_eq (s : State) (r : StepResult) : r.outcome s = .next (r.after s) := rfl

end Sys2Proof.Machine
end

