-- ==== Sys2Proof/Laws/Operands.lean ====
section
/-! SUPPORT. What the argument resolver can do (30_encoding.md rules R71 to R75), said once for each
of its functions. -/

namespace Sys2Proof.Machine

/-! ### The effective address -/

@[simp] theorem effectiveAddress_position (p rb : Int) :
    effectiveAddress { mode := .position, literal := p } rb = some p := rfl

@[simp] theorem effectiveAddress_immediate (p rb : Int) :
    effectiveAddress { mode := .immediate, literal := p } rb = none := rfl

@[simp] theorem effectiveAddress_relative (p rb : Int) :
    effectiveAddress { mode := .relative, literal := p } rb = some (p + rb) := rfl

theorem effectiveAddress_eq_none {o : Operand} {rb : Int} :
    effectiveAddress o rb = none ↔ o.mode = .immediate := by
  obtain ⟨m, p⟩ := o
  cases m <;> simp

/-! ### Read arguments -/

theorem readArg_immediate {s : State} {o : Operand} (k : Nat) (h : effectiveAddress o s.rb = none) :
    readArg s k o = .ok o.literal := by simp [readArg, h]

theorem readArg_nonneg {s : State} {o : Operand} {ea : Int} (k : Nat)
    (h : effectiveAddress o s.rb = some ea) (h0 : 0 ≤ ea) :
    readArg s k o = .ok (s.mem.read ea.toNat) := by
  simp [readArg, h, not_lt.2 h0]

theorem readArg_neg {s : State} {o : Operand} {ea : Int} (k : Nat)
    (h : effectiveAddress o s.rb = some ea) (h0 : ea < 0) :
    readArg s k o = .error (s.addressFault k ea) := by
  simp [readArg, h, h0]

/-- When a read argument has a value: it is immediate, or its effective address is not negative. -/
theorem readArg_ok {s : State} {k : Nat} {o : Operand} {v : Int} (h : readArg s k o = .ok v) :
    (effectiveAddress o s.rb = none ∧ v = o.literal) ∨
      ∃ ea, effectiveAddress o s.rb = some ea ∧ 0 ≤ ea ∧ v = s.mem.read ea.toNat := by
  cases hea : effectiveAddress o s.rb with
  | none => rw [readArg_immediate k hea] at h; cases h; exact .inl ⟨rfl, rfl⟩
  | some ea =>
    by_cases h0 : ea < 0
    · rw [readArg_neg k hea h0] at h; cases h
    · rw [readArg_nonneg k hea (not_lt.1 h0)] at h; cases h
      exact .inr ⟨ea, rfl, not_lt.1 h0, rfl⟩

/-- The only fault of a read argument: a negative effective address (R74). -/
theorem readArg_error {s : State} {k : Nat} {o : Operand} {f : FaultRecord}
    (h : readArg s k o = .error f) :
    ∃ ea, effectiveAddress o s.rb = some ea ∧ ea < 0 ∧ f = s.addressFault k ea := by
  cases hea : effectiveAddress o s.rb with
  | none => rw [readArg_immediate k hea] at h; cases h
  | some ea =>
    by_cases h0 : ea < 0
    · rw [readArg_neg k hea h0] at h; cases h; exact ⟨ea, rfl, h0, rfl⟩
    · rw [readArg_nonneg k hea (not_lt.1 h0)] at h; cases h

/-! ### Write arguments -/

theorem writeArg_immediate {s : State} {o : Operand} (k : Nat) (h : effectiveAddress o s.rb = none) :
    writeArg s k o = .error (s.invalidWriteTarget k) := by simp [writeArg, h]

theorem writeArg_nonneg {s : State} {o : Operand} {ea : Int} (k : Nat)
    (h : effectiveAddress o s.rb = some ea) (h0 : 0 ≤ ea) : writeArg s k o = .ok ea.toNat := by
  simp [writeArg, h, not_lt.2 h0]

theorem writeArg_neg {s : State} {o : Operand} {ea : Int} (k : Nat)
    (h : effectiveAddress o s.rb = some ea) (h0 : ea < 0) :
    writeArg s k o = .error (s.addressFault k ea) := by
  simp [writeArg, h, h0]

/-- When a write argument has an address: it has an effective address that is not negative. -/
theorem writeArg_ok {s : State} {k : Nat} {o : Operand} {a : Nat} (h : writeArg s k o = .ok a) :
    effectiveAddress o s.rb = some (a : Int) := by
  cases hea : effectiveAddress o s.rb with
  | none => rw [writeArg_immediate k hea] at h; cases h
  | some ea =>
    by_cases h0 : ea < 0
    · rw [writeArg_neg k hea h0] at h; cases h
    · rw [writeArg_nonneg k hea (not_lt.1 h0)] at h; cases h
      simp [Int.toNat_of_nonneg (not_lt.1 h0)]

/-- The faults of a write argument: an immediate write target (R69) or a negative effective address
(R74). -/
theorem writeArg_error {s : State} {k : Nat} {o : Operand} {f : FaultRecord}
    (h : writeArg s k o = .error f) :
    (o.mode = .immediate ∧ f = s.invalidWriteTarget k) ∨
      ∃ ea, effectiveAddress o s.rb = some ea ∧ ea < 0 ∧ f = s.addressFault k ea := by
  cases hea : effectiveAddress o s.rb with
  | none =>
    rw [writeArg_immediate k hea] at h; cases h
    exact .inl ⟨effectiveAddress_eq_none.1 hea, rfl⟩
  | some ea =>
    by_cases h0 : ea < 0
    · rw [writeArg_neg k hea h0] at h; cases h; exact .inr ⟨ea, rfl, h0, rfl⟩
    · rw [writeArg_nonneg k hea (not_lt.1 h0)] at h; cases h

/-- An operand whose address can be taken is not immediate. -/
theorem mayBeWritten_of_writeArg {s : State} {k : Nat} {o : Operand} {a : Nat}
    (h : writeArg s k o = .ok a) : o.mayBeWritten = true := by
  have := writeArg_ok h
  obtain ⟨m, p⟩ := o
  cases m <;> simp_all [Operand.mayBeWritten]

/-! ### The resolver in terms of the mode digit -/

/-- The address a literal names under a mode digit 0 or 2 (R71). -/
def addressByDigit (digit : Nat) (p rb : Int) : Int := if digit = 2 then p + rb else p

/-- A read argument by its mode digit, as the pseudocode of R75 tests it. -/
theorem readArg_by_digit (s : State) (k : Nat) (m : Mode) (p : Int) :
    readArg s k { mode := m, literal := p } =
      if m.toDigit ≠ 1 ∧ addressByDigit m.toDigit p s.rb < 0 then
        .error (s.addressFault k (addressByDigit m.toDigit p s.rb))
      else .ok (if m.toDigit = 1 then p else s.mem.read (addressByDigit m.toDigit p s.rb).toNat) := by
  cases m <;> simp [readArg, effectiveAddress, addressByDigit, Mode.toDigit]

/-- A write argument that is not immediate, by its mode digit. -/
theorem writeArg_by_digit (s : State) (k : Nat) (m : Mode) (p : Int) (h : m.toDigit ≠ 1) :
    writeArg s k { mode := m, literal := p } =
      if addressByDigit m.toDigit p s.rb < 0 then
        .error (s.addressFault k (addressByDigit m.toDigit p s.rb))
      else .ok (addressByDigit m.toDigit p s.rb).toNat := by
  cases m <;> simp_all [writeArg, effectiveAddress, addressByDigit, Mode.toDigit]

/-! ### The arguments of an instruction together -/

theorem resolveTwo_ok_iff {s : State} {a b : Operand} {v1 v2 : Int} :
    resolveTwo s a b = .ok (v1, v2) ↔ readArg s 1 a = .ok v1 ∧ readArg s 2 b = .ok v2 := by
  unfold resolveTwo
  cases readArg s 1 a <;> cases readArg s 2 b <;> simp

theorem resolveTwo_error {s : State} {a b : Operand} {f : FaultRecord}
    (h : resolveTwo s a b = .error f) :
    readArg s 1 a = .error f ∨ (∃ v, readArg s 1 a = .ok v) ∧ readArg s 2 b = .error f := by
  unfold resolveTwo at h
  cases h1 : readArg s 1 a with
  | error g => simp_all
  | ok v => cases h2 : readArg s 2 b <;> simp_all

theorem resolveThree_ok_iff {s : State} {a b d : Operand} {v1 v2 : Int} {a3 : Nat} :
    resolveThree s a b d = .ok (v1, v2, a3) ↔
      readArg s 1 a = .ok v1 ∧ readArg s 2 b = .ok v2 ∧ writeArg s 3 d = .ok a3 := by
  constructor
  · intro h
    unfold resolveThree at h
    split at h
    · cases h2 : resolveTwo s a b with
      | error f => simp [h2] at h
      | ok p =>
        obtain ⟨w1, w2⟩ := p
        cases h3 : writeArg s 3 d with
        | error f => simp [h2, h3] at h
        | ok a => simp [h2, h3] at h; have := resolveTwo_ok_iff.1 h2; simp_all
    · cases h
  · rintro ⟨h1, h2, h3⟩
    simp [resolveThree, mayBeWritten_of_writeArg h3, resolveTwo_ok_iff.2 ⟨h1, h2⟩, h3]

/-- The faults of a three-argument instruction: an immediate write target at argument 3, or a negative
effective address at one of the arguments. -/
theorem resolveThree_error {s : State} {a b d : Operand} {f : FaultRecord}
    (h : resolveThree s a b d = .error f) :
    (d.mode = .immediate ∧ f = s.invalidWriteTarget 3) ∨
      ∃ k ea, 1 ≤ k ∧ k ≤ 3 ∧ ea < 0 ∧ f = s.addressFault k ea := by
  unfold resolveThree at h
  split at h
  · cases h2 : resolveTwo s a b with
    | error g =>
      have : g = f := by simpa [h2] using h
      subst this
      rcases resolveTwo_error h2 with h1 | ⟨-, h1⟩ <;>
        obtain ⟨ea, -, h0, rfl⟩ := readArg_error h1
      · exact .inr ⟨1, ea, by omega, by omega, h0, rfl⟩
      · exact .inr ⟨2, ea, by omega, by omega, h0, rfl⟩
    | ok p =>
      obtain ⟨w1, w2⟩ := p
      cases h3 : writeArg s 3 d with
      | error g =>
        have : g = f := by simpa [h2, h3] using h
        subst this
        rcases writeArg_error h3 with h1 | ⟨ea, -, h0, rfl⟩
        · exact .inl h1
        · exact .inr ⟨3, ea, by omega, by omega, h0, rfl⟩
      | ok a3 => simp [h2, h3] at h
  · next hd =>
    refine .inl ⟨by simpa [Operand.mayBeWritten] using hd, ?_⟩
    cases h; rfl

/-- The store of a three-argument instruction whose arguments resolve. -/
theorem storeResult_completed {f : Int → Int → Int} {a b d : Operand} {s : State} {v1 v2 : Int}
    {a3 : Nat} (h1 : readArg s 1 a = .ok v1) (h2 : readArg s 2 b = .ok v2)
    (h3 : writeArg s 3 d = .ok a3) :
    storeResult f a b d s = .completed ((s.writeMem a3 (f v1 v2)).advance 4) := by
  simp [storeResult, resolveThree_ok_iff.2 ⟨h1, h2, h3⟩]

/-- Everything a three-argument instruction can do. -/
theorem storeResult_cases (f : Int → Int → Int) (a b d : Operand) (s : State) :
    (∃ v1 v2 a3, readArg s 1 a = .ok v1 ∧ readArg s 2 b = .ok v2 ∧ writeArg s 3 d = .ok a3 ∧
        storeResult f a b d s = .completed ((s.writeMem a3 (f v1 v2)).advance 4)) ∨
      ∃ r, resolveThree s a b d = .error r ∧ storeResult f a b d s = .faulted r := by
  cases h : resolveThree s a b d with
  | error r => exact .inr ⟨r, rfl, by simp [storeResult, h]⟩
  | ok p =>
    obtain ⟨v1, v2, a3⟩ := p
    obtain ⟨h1, h2, h3⟩ := resolveThree_ok_iff.1 h
    exact .inl ⟨v1, v2, a3, h1, h2, h3, storeResult_completed h1 h2 h3⟩

end Sys2Proof.Machine
end

