-- ==== Sys2Proof/Laws/Results.lean ====
section
/-! SUPPORT. What an instruction and a step can do, said once: the inversion lemmas that later proofs
cite instead of unfolding a meaning (30_encoding.md rule R75). -/

namespace Sys2Proof.Machine

/-- `exec` is the outcome of `result`: both read the meanings of the same instruction. -/
theorem exec_eq_result (i : Instr) (s : State) : exec i s = .next ((result i s).after s) := by
  cases i <;> rfl

/-- A step of a Running machine is the outcome of its attempt. -/
theorem step_running {s : State} (h : s.status = .running) :
    step s = .next ((attempt s).after s) := by
  simp only [step, h, attempt]
  cases hf : s.fetch with
  | error f => rfl
  | ok i => exact exec_eq_result i s

/-- A stopped machine's step changes nothing (R225). -/
theorem step_stopped {s : State} (h : s.status ≠ .running) : step s = .next s := by
  unfold step
  cases hs : s.status <;> simp_all

/-- A jump whose arguments resolve. -/
theorem jumpResult_of_args {taken : Int → Bool} {c t : Operand} {s : State} {v1 v2 : Int}
    (h1 : readArg s 1 c = .ok v1) (h2 : readArg s 2 t = .ok v2) :
    jumpResult taken c t s =
      if taken v1 then
        if v2 < 0 then .faulted (s.addressFault 2 v2) else .completed (s.setPc v2.toNat)
      else .completed (s.advance 3) := by
  simp [jumpResult, resolveTwo_ok_iff.2 ⟨h1, h2⟩]

/-- An outcome of a run that is due at once does not wait for the budget. -/
theorem run_of_runEnd {s : State} {o : RunOutcome} (h : s.runEnd? = some o) (budget : Nat) :
    run budget s = (some o, s) := by
  cases budget <;> simp [run, h]

/-- What the completed execution of an instruction can leave, one constructor per shape of effect. -/
inductive Effect (s : State) : State → Prop where
  | stored (a : Nat) (v : Int) : Effect s ((s.writeMem a v).advance 4)
  | consumed (a : Nat) (v : Int) (rest : List Int) :
      s.inq = v :: rest → Effect s (((s.writeMem a v).setInq rest).advance 2)
  | emitted (v : Int) : s.outputFull = false → Effect s ((s.emit v).advance 2)
  | jumped (t : Nat) : Effect s (s.setPc t)
  | passed : Effect s (s.advance 3)
  | adjusted (v : Int) : Effect s ((s.addRb v).advance 2)
  | halted : Effect s s.stop

/-- The faults an instruction can raise after it has been decoded. -/
inductive FaultOf (i : Instr) (s : State) : FaultRecord → Prop where
  | address (k : Nat) (a : Int) : 1 ≤ k → k ≤ 3 → a < 0 → FaultOf i s (s.addressFault k a)
  | writeTarget (k : Nat) (o : Operand) :
      i.writeOperand? = some (k, o) → o.mode = .immediate → FaultOf i s (s.invalidWriteTarget k)

/-- Everything an instruction can do (R75): complete with one of the effects, raise one of the faults,
or wait for the host. -/
inductive ResultOf (i : Instr) (s : State) : StepResult → Prop where
  | completed {t : State} : Effect s t → ResultOf i s (.completed t)
  | faulted {f : FaultRecord} : FaultOf i s f → ResultOf i s (.faulted f)
  | starved : (∃ d, i = .input d) → s.inq = [] → ResultOf i s (.suspended .inputStarvation)
  | blocked : (∃ a, i = .output a) → s.outputFull = true → ResultOf i s (.suspended .outputBackpressure)

theorem FaultOf.of_readArg {i : Instr} {s : State} {k : Nat} {o : Operand} {f : FaultRecord}
    (h1 : 1 ≤ k) (h3 : k ≤ 3) (h : readArg s k o = .error f) : FaultOf i s f := by
  obtain ⟨ea, -, h0, rfl⟩ := readArg_error h
  exact .address k ea h1 h3 h0

theorem ResultOf.of_store (f : Int → Int → Int) (a b d : Operand) (i : Instr)
    (hi : i.writeOperand? = some (3, d)) (s : State) : ResultOf i s (storeResult f a b d s) := by
  rcases storeResult_cases f a b d s with ⟨v1, v2, a3, -, -, -, h⟩ | ⟨r, hr, h⟩ <;> rw [h]
  · exact .completed (.stored a3 _)
  · rcases resolveThree_error hr with ⟨hd, rfl⟩ | ⟨k, ea, h1, h3, h0, rfl⟩
    · exact .faulted (.writeTarget 3 d hi hd)
    · exact .faulted (.address k ea h1 h3 h0)

theorem ResultOf.of_jump (taken : Int → Bool) (c t : Operand) (i : Instr) (s : State) :
    ResultOf i s (jumpResult taken c t s) := by
  unfold jumpResult
  cases h : resolveTwo s c t with
  | error f =>
    rcases resolveTwo_error h with h1 | ⟨-, h2⟩
    · exact .faulted (.of_readArg (by omega) (by omega) h1)
    · exact .faulted (.of_readArg (by omega) (by omega) h2)
  | ok p =>
    obtain ⟨v1, v2⟩ := p
    dsimp only
    split
    · split
      · next h0 => exact .faulted (.address 2 v2 (by omega) (by omega) h0)
      · exact .completed (.jumped _)
    · exact .completed .passed

/-- The one inversion lemma of the instructions. -/
theorem result_cases (i : Instr) (s : State) : ResultOf i s (result i s) := by
  cases i with
  | add a b d => exact .of_store _ a b d _ rfl s
  | mul a b d => exact .of_store _ a b d _ rfl s
  | lessThan a b d => exact .of_store _ a b d _ rfl s
  | equals a b d => exact .of_store _ a b d _ rfl s
  | jumpIfTrue c t => exact .of_jump _ c t _ s
  | jumpIfFalse c t => exact .of_jump _ c t _ s
  | halt => exact .completed .halted
  | input d =>
    simp only [result, inputResult]
    cases h : writeArg s 1 d with
    | error f =>
      rcases writeArg_error h with ⟨hd, rfl⟩ | ⟨ea, -, h0, rfl⟩
      · exact .faulted (.writeTarget 1 d rfl hd)
      · exact .faulted (.address 1 ea (by omega) (by omega) h0)
    | ok a1 =>
      cases hq : s.inq with
      | nil => exact .starved ⟨d, rfl⟩ hq
      | cons v rest => exact .completed (.consumed a1 v rest hq)
  | output a =>
    simp only [result, outputResult]
    cases h : readArg s 1 a with
    | error f => exact .faulted (.of_readArg (by omega) (by omega) h)
    | ok v =>
      dsimp only
      split
      · next hf => exact .blocked ⟨a, rfl⟩ hf
      · next hf => exact .completed (.emitted v (by simpa using hf))
  | adjustRb a =>
    simp only [result, adjustRbResult]
    cases h : readArg s 1 a with
    | error f => exact .faulted (.of_readArg (by omega) (by omega) h)
    | ok v => exact .completed (.adjusted v)

/-- Everything a step of a Running machine can do. -/
theorem attempt_cases (s : State) :
    (∃ i, s.fetch = .ok i ∧ attempt s = result i s ∧ ResultOf i s (attempt s)) ∨
      ∃ e, decode (s.mem.read s.pc) (fun k => s.mem.read (s.pc + k)) = .error e ∧
        attempt s = .faulted (s.decodeErrorFault e) := by
  unfold attempt
  cases h : decode (s.mem.read s.pc) (fun k => s.mem.read (s.pc + k)) with
  | error e => exact .inr ⟨e, rfl, by simp [State.fetch, h]⟩
  | ok i =>
    have hf : s.fetch = .ok i := by simp [State.fetch, h]
    exact .inl ⟨i, hf, by simp [hf], by simpa [hf] using result_cases i s⟩

/-- A machine suspends exactly when it is Running and its attempt is a suspension. -/
theorem suspension_eq_some {s : State} {r : SuspendReason} :
    suspension s = some r ↔ s.status = .running ∧ attempt s = .suspended r := by
  unfold suspension
  cases s.status <;> cases attempt s <;> simp

/-- A suspended step changes nothing (R218). -/
theorem step_suspended {s : State} {r : SuspendReason} (h : suspension s = some r) :
    step s = .next s := by
  obtain ⟨hs, ha⟩ := suspension_eq_some.1 h
  simp [step_running hs, ha]

/-- The instruction a fetch answers is well formed: the decoder has checked its write argument (R69). -/
theorem fetch_wf {s : State} {i : Instr} (h : s.fetch = .ok i) : i.wf = true := by
  unfold State.fetch at h
  cases hd : decode (s.mem.read s.pc) fun k => s.mem.read (s.pc + k) with
  | error e => simp [hd] at h
  | ok j =>
    simp only [hd] at h
    cases h
    unfold decode at hd
    cases hw : decodeWord (s.mem.read s.pc) with
    | error e => simp [hw] at hd
    | ok p =>
      obtain ⟨op, ms⟩ := p
      simp only [hw] at hd
      cases hd
      obtain ⟨-, hop, hms, hwr⟩ := decodeWord_ok_iff.1 hw
      obtain ⟨hlen, -⟩ := decodeModes_ok_iff.1 hms
      cases op <;> simp_all [assemble, Instr.wf, Instr.writeOperand?, Opcode.writePosition?, argument,
        Operand.mayBeWritten, Opcode.arity]

end Sys2Proof.Machine
end

