-- ==== Sys2Proof/Laws/Network.lean ====
section
/-! SUPPORT. What a global step of a network does to machines and channels, said once: that an instruction
looks at no more of its queues than the head of one and the length of the other, and the inversion of
`Network.globalStep` (60_exceptions.md rules R236 to R241). -/

namespace Sys2Proof.Machine

/-! ### What a step does with its queues -/

/-- The state with other queues: more values waiting at the end of `inq`, other values in `outq`. -/
def State.withQueues (s : State) (e q : List Int) : State := { s with inq := s.inq ++ e, outq := q }

/-- An instruction looks at no more of `inq` than its head and at no more of `outq` than its length, so it
completes alike when values are appended to `inq` and `outq` is replaced by a shorter one. -/
theorem result_withQueues (i : Instr) (s : State) (e q : List Int) (hq : q.length ≤ s.outq.length) :
    (∀ t, result i s = .completed t →
      result i (s.withQueues e q) =
        .completed { t with inq := t.inq ++ e, outq := q ++ emittedBetween s t }) ∧
    ∀ f, result i s = .faulted f → result i (s.withQueues e q) = .faulted f := by
  have rd : ∀ k o, readArg (s.withQueues e q) k o = readArg s k o := fun _ _ => rfl
  have wr : ∀ k o, writeArg (s.withQueues e q) k o = writeArg s k o := fun _ _ => rfl
  have r2 : ∀ a b, resolveTwo (s.withQueues e q) a b = resolveTwo s a b := fun _ _ => rfl
  have r3 : ∀ a b d, resolveThree (s.withQueues e q) a b d = resolveThree s a b d := fun _ _ _ => rfl
  have store : ∀ (g : Int → Int → Int) (a b d : Operand),
      (∀ t, storeResult g a b d s = .completed t →
        storeResult g a b d (s.withQueues e q) =
          .completed { t with inq := t.inq ++ e, outq := q ++ emittedBetween s t }) ∧
      ∀ f, storeResult g a b d s = .faulted f → storeResult g a b d (s.withQueues e q) = .faulted f := by
    intro g a b d
    simp only [storeResult, r3]
    cases resolveThree s a b d with
    | error f => simp
    | ok p => simp [State.withQueues, State.writeMem, State.advance, emittedBetween]
  have jump : ∀ (g : Int → Bool) (a b : Operand),
      (∀ t, jumpResult g a b s = .completed t →
        jumpResult g a b (s.withQueues e q) =
          .completed { t with inq := t.inq ++ e, outq := q ++ emittedBetween s t }) ∧
      ∀ f, jumpResult g a b s = .faulted f → jumpResult g a b (s.withQueues e q) = .faulted f := by
    intro g a b
    simp only [jumpResult, r2]
    cases resolveTwo s a b with
    | error f => simp
    | ok p =>
      obtain ⟨v1, v2⟩ := p
      dsimp only
      split
      · split
        · simp [State.addressFault, State.currentWord, State.withQueues]
        · simp [State.withQueues, State.setPc, emittedBetween]
      · simp [State.withQueues, State.advance, emittedBetween]
  cases i with
  | add a b d => exact store _ a b d
  | mul a b d => exact store _ a b d
  | lessThan a b d => exact store _ a b d
  | equals a b d => exact store _ a b d
  | jumpIfTrue c t => exact jump _ c t
  | jumpIfFalse c t => exact jump _ c t
  | halt => simp [result, haltResult, State.withQueues, State.stop, emittedBetween]
  | adjustRb a =>
    simp only [result, adjustRbResult, rd]
    cases readArg s 1 a <;> simp [State.withQueues, State.addRb, State.advance, emittedBetween]
  | input d =>
    simp only [result, inputResult, wr]
    cases writeArg s 1 d with
    | error f => simp
    | ok a =>
      cases hi : s.inq <;>
        simp [State.withQueues, hi, State.writeMem, State.setInq, State.advance, emittedBetween]
  | output a =>
    simp only [result, outputResult, rd]
    cases readArg s 1 a with
    | error f => simp
    | ok v =>
      dsimp only
      by_cases hf : s.outputFull = true
      · simp [hf]
      · have : (s.withQueues e q).outputFull = false := by
          unfold State.outputFull at hf ⊢
          cases hc : s.config.outCap with
          | none => simp [State.withQueues, hc]
          | some c =>
            simp only [hc, decide_eq_true_eq, not_le] at hf
            simp only [State.withQueues, hc]
            exact decide_eq_false (Nat.not_le.2 (Nat.lt_of_le_of_lt hq hf))
        simp [hf, this]
        simp [State.withQueues, State.emit, State.advance, emittedBetween]

/-- A machine can step exactly when it is Running and its attempt does not suspend. -/
theorem State.canStep_iff {s : State} :
    s.canStep = true ↔ s.status = .running ∧ ∀ r, attempt s ≠ .suspended r := by
  unfold State.canStep suspension
  cases s.status <;> cases attempt s <;> simp

/-- A step that does not suspend is the same step when values are appended to `inq` and `outq` is replaced
by a shorter one (R241). -/
theorem step_withQueues {s t : State} (e q : List Int) (hc : s.canStep = true) (ht : step s = .next t)
    (hq : q.length ≤ s.outq.length) :
    (s.withQueues e q).canStep = true ∧
      step (s.withQueues e q) =
        .next { t with inq := t.inq ++ e, outq := q ++ emittedBetween s t } := by
  obtain ⟨hs, hns⟩ := State.canStep_iff.1 hc
  rw [step_running hs] at ht
  cases ht
  have hs' : (s.withQueues e q).status = .running := hs
  have key : (∀ u, attempt s = .completed u →
      attempt (s.withQueues e q) = .completed { u with inq := u.inq ++ e, outq := q ++ emittedBetween s u }) ∧
      ∀ f, attempt s = .faulted f → attempt (s.withQueues e q) = .faulted f := by
    have hf : (s.withQueues e q).fetch = s.fetch := rfl
    unfold attempt
    rw [hf]
    cases s.fetch with
    | error f => simp
    | ok i => exact result_withQueues i s e q hq
  rw [State.canStep_iff, step_running hs']
  cases ha : attempt s with
  | suspended r => exact absurd ha (hns r)
  | completed u => simp [key.1 u ha, hs']
  | faulted f =>
    simp [key.2 f ha, hs']
    simp [State.takeFault, State.withQueues, emittedBetween]

/-- A step takes values from the front of `inq` and puts values at the end of `outq` (R125). -/
theorem step_queues {s t : State} (h : step s = .next t) :
    (∃ consumed, s.inq = consumed ++ t.inq) ∧ t.outq = s.outq ++ emittedBetween s t := by
  by_cases hs : s.status = .running
  · rw [step_running hs] at h
    cases h
    cases ha : attempt s with
    | suspended r => exact ⟨⟨[], rfl⟩, by simp [emittedBetween]⟩
    | faulted f => exact ⟨⟨[], rfl⟩, by simp [emittedBetween]⟩
    | completed u =>
      rcases attempt_cases s with ⟨i, -, -, hr⟩ | ⟨e, -, ha'⟩
      · rw [ha] at hr
        cases hr with
        | completed he =>
          cases he with
          | consumed a v rest hq => exact ⟨⟨[v], by simp [hq]⟩, by simp [emittedBetween]⟩
          | _ => exact ⟨⟨[], by simp⟩, by simp [emittedBetween]⟩
      · rw [ha] at ha'; cases ha'
  · rw [step_stopped hs] at h
    cases h
    exact ⟨⟨[], rfl⟩, by simp [emittedBetween]⟩

/-! ### Channels -/

@[simp] theorem Channel.afterStep_producer (c : Channel) (i : Nat) (q w : List Int) :
    (c.afterStep i q w).producer = c.producer := by
  unfold Channel.afterStep; dsimp only; split <;> rfl

@[simp] theorem Channel.afterStep_consumer (c : Channel) (i : Nat) (q w : List Int) :
    (c.afterStep i q w).consumer = c.consumer := by
  unfold Channel.afterStep; dsimp only; split <;> rfl

theorem Channel.afterStep_queue (c : Channel) (i : Nat) (q w : List Int) :
    (c.afterStep i q w).queue =
      (if c.consumer = i then q else c.queue) ++ if c.producer = i then w else [] := by
  unfold Channel.afterStep; dsimp only; split <;> simp_all

theorem Channel.afterStep_emitted (c : Channel) (i : Nat) (q w : List Int) :
    (c.afterStep i q w).emitted = c.emitted ++ if c.producer = i then w else [] := by
  unfold Channel.afterStep; dsimp only; split <;> simp_all

/-- The channels after machine `i` has left `q` as its input queue and emitted `w`. -/
def Network.channelsAfter (n : Network) (i : Nat) (q w : List Int) : List Channel :=
  n.channels.map (fun c => c.afterStep i q w)

/-- What a global step is (R239), in one piece. -/
theorem Network.globalStep_eq_some {n n' : Network} {i : Nat} :
    n.globalStep i = some n' ↔
      ∃ m v t, n.machines[i]? = some m ∧ v = { m with inq := n.inQueue i m, outq := n.outQueue i m } ∧
        v.canStep = true ∧ step v = .next t ∧
        n' = { machines := n.machines.set i (n.kept i m t),
               channels := n.channelsAfter i t.inq (emittedBetween v t) } := by
  unfold Network.globalStep Network.view?
  cases hm : n.machines[i]? with
  | none => simp
  | some m =>
    dsimp only
    generalize hv : ({ m with inq := n.inQueue i m, outq := n.outQueue i m } : State) = v
    by_cases hc : v.canStep = true
    · obtain ⟨t, ht⟩ : ∃ t, step v = .next t := ⟨_, step_running (State.canStep_iff.1 hc).1⟩
      simp only [hc, if_true, ht]
      constructor
      · intro h; cases h; exact ⟨m, v, t, rfl, hv.symm, hc, ht, rfl⟩
      · rintro ⟨m', v', t', h1, h2, -, h4, rfl⟩
        cases h1
        rw [hv] at h2
        subst h2
        rw [ht] at h4
        cases h4
        rfl
    · simp only [hc]
      constructor
      · intro h; cases h
      · rintro ⟨m', v', t', h1, h2, h3, -⟩
        cases h1
        rw [hv] at h2
        subst h2
        exact absurd h3 hc

theorem Network.inChannel?_after (n : Network) (ms : List State) (i j : Nat) (q w : List Int) :
    Network.inChannel? { machines := ms, channels := n.channelsAfter i q w } j =
      (n.inChannel? j).map (fun c => c.afterStep i q w) := by
  simp [Network.inChannel?, Network.channelsAfter, List.find?_map]

theorem Network.outChannel?_after (n : Network) (ms : List State) (i j : Nat) (q w : List Int) :
    Network.outChannel? { machines := ms, channels := n.channelsAfter i q w } j =
      (n.outChannel? j).map (fun c => c.afterStep i q w) := by
  simp [Network.outChannel?, Network.channelsAfter, List.find?_map]

theorem Network.inChannel?_spec {n : Network} {i : Nat} {c : Channel} (h : n.inChannel? i = some c) :
    c ∈ n.channels ∧ c.consumer = i :=
  ⟨List.mem_of_find?_eq_some h, by simpa using List.find?_some h⟩

theorem Network.outChannel?_spec {n : Network} {i : Nat} {c : Channel} (h : n.outChannel? i = some c) :
    c ∈ n.channels ∧ c.producer = i :=
  ⟨List.mem_of_find?_eq_some h, by simpa using List.find?_some h⟩

/-- The first element of a list that a key picks out is any element with that key, where keys do not
repeat. -/
theorem find?_of_nodup_map {α : Type} {key : α → Nat} {l : List α} {x : α} (h : (l.map key).Nodup)
    (hx : x ∈ l) : l.find? (fun y => decide (key y = key x)) = some x := by
  induction l with
  | nil => cases hx
  | cons y l ih =>
    simp only [List.map_cons, List.nodup_cons] at h
    rcases List.mem_cons.1 hx with rfl | hx
    · simp
    · have : key y ≠ key x := fun he => h.1 (he ▸ List.mem_map_of_mem hx)
      simp [this, ih h.2 hx]

theorem Network.wired_iff {n : Network} :
    n.wired = true ↔
      (∀ c ∈ n.channels, c.producer < n.machines.length ∧ c.consumer < n.machines.length) ∧
        (n.channels.map Channel.producer).Nodup ∧ (n.channels.map Channel.consumer).Nodup := by
  simp [Network.wired, and_assoc]

/-- A wired channel is its consumer's input channel. -/
theorem Network.inChannel?_of_mem {n : Network} (h : n.wired = true) {c : Channel} (hc : c ∈ n.channels) :
    n.inChannel? c.consumer = some c :=
  find?_of_nodup_map (Network.wired_iff.1 h).2.2 hc

/-- A wired channel is its producer's output channel. -/
theorem Network.outChannel?_of_mem {n : Network} (h : n.wired = true) {c : Channel} (hc : c ∈ n.channels) :
    n.outChannel? c.producer = some c :=
  find?_of_nodup_map (Network.wired_iff.1 h).2.1 hc

/-- A global step leaves the wiring as it was. -/
theorem Network.wired_globalStep {n n' : Network} {i : Nat} (h : n.wired = true)
    (hs : n.globalStep i = some n') : n'.wired = true := by
  obtain ⟨m, v, t, -, -, -, -, rfl⟩ := Network.globalStep_eq_some.1 hs
  rw [Network.wired_iff] at h ⊢
  simpa [Network.channelsAfter, Function.comp_def] using h

end Sys2Proof.Machine
end

