-- ==== Sys2Proof/Laws/PerInstr.lean ====
section
/-! SUPPORT. Facts of every instruction as syntax, one lemma per constructor. -/

namespace Sys2Proof.Laws.WordDigits

/-- The canonical word of a well-formed instruction has the opcode in its two low decimal digits, the
mode of argument `k` at digit `k + 1`, no digit above its last mode, and a write argument whose mode
digit is not 1 (30_encoding.md rules R61, R69, R79). -/
def Statement (i : Instr) : Prop :=
  i.word % 100 = i.opcode.number ∧
  (∀ (k : Nat) (o : Operand), i.operands[k]? = some o → digit i.word (k + 2) = o.mode.toDigit) ∧
  i.word < 10 ^ (2 + i.opcode.arity) ∧
  (i.wf = true → ∀ k, i.opcode.writePosition? = some k → digit i.word (k + 1) ≠ 1)

/-- The statement from the two facts that depend on the opcode: how many arguments it has, and which one
it writes. -/
theorem of_shape (i : Instr) (harity : i.operands.length = i.opcode.arity)
    (hwrite : i.wf = true → ∀ k, i.opcode.writePosition? = some k →
      ∃ o, i.operands[k - 1]? = some o ∧ 1 ≤ k ∧ o.mode ≠ .immediate) : Statement i := by
  have hdigit : ∀ (k : Nat) (o : Operand), i.operands[k]? = some o → digit i.word (k + 2) = o.mode.toDigit := by
    intro k o h
    obtain ⟨hk, rfl⟩ := List.getElem?_eq_some_iff.1 h
    rw [i.digit_word, digit_modeDigits _ _ hk]
  refine ⟨i.word_mod, hdigit, ?_, ?_⟩
  · have h1 := modeDigits_lt i.operands
    have h2 := i.opcode.number_lt
    rw [harity] at h1
    simp only [Instr.word, pow_add]
    omega
  · intro hwf k hk
    obtain ⟨o, ho, h1, hm⟩ := hwrite hwf k hk
    have := hdigit (k - 1) o ho
    rw [show k - 1 + 2 = k + 1 by omega] at this
    rw [this]
    revert hm
    cases o.mode <;> decide

theorem add (a b dst : Operand) : Statement (.add a b dst) := by
  apply of_shape <;> simp [Instr.operands, Instr.opcode, Opcode.arity, Opcode.writePosition?, Instr.wf,
    Instr.writeOperand?, Operand.mayBeWritten]

theorem mul (a b dst : Operand) : Statement (.mul a b dst) := by
  apply of_shape <;> simp [Instr.operands, Instr.opcode, Opcode.arity, Opcode.writePosition?, Instr.wf,
    Instr.writeOperand?, Operand.mayBeWritten]

theorem input (dst : Operand) : Statement (.input dst) := by
  apply of_shape <;> simp [Instr.operands, Instr.opcode, Opcode.arity, Opcode.writePosition?, Instr.wf,
    Instr.writeOperand?, Operand.mayBeWritten]

theorem output (a : Operand) : Statement (.output a) := by
  apply of_shape <;> simp [Instr.operands, Instr.opcode, Opcode.arity, Opcode.writePosition?, Instr.wf,
    Instr.writeOperand?]

theorem jumpIfTrue (cond target : Operand) : Statement (.jumpIfTrue cond target) := by
  apply of_shape <;> simp [Instr.operands, Instr.opcode, Opcode.arity, Opcode.writePosition?, Instr.wf,
    Instr.writeOperand?]

theorem jumpIfFalse (cond target : Operand) : Statement (.jumpIfFalse cond target) := by
  apply of_shape <;> simp [Instr.operands, Instr.opcode, Opcode.arity, Opcode.writePosition?, Instr.wf,
    Instr.writeOperand?]

theorem lessThan (a b dst : Operand) : Statement (.lessThan a b dst) := by
  apply of_shape <;> simp [Instr.operands, Instr.opcode, Opcode.arity, Opcode.writePosition?, Instr.wf,
    Instr.writeOperand?, Operand.mayBeWritten]

theorem equals (a b dst : Operand) : Statement (.equals a b dst) := by
  apply of_shape <;> simp [Instr.operands, Instr.opcode, Opcode.arity, Opcode.writePosition?, Instr.wf,
    Instr.writeOperand?, Operand.mayBeWritten]

theorem adjustRb (a : Operand) : Statement (.adjustRb a) := by
  apply of_shape <;> simp [Instr.operands, Instr.opcode, Opcode.arity, Opcode.writePosition?, Instr.wf,
    Instr.writeOperand?]

theorem halt : Statement .halt := by
  apply of_shape <;> simp [Instr.operands, Instr.opcode, Opcode.arity, Opcode.writePosition?]

end Sys2Proof.Laws.WordDigits
end

