-- ==== Sys2Proof/Tests/Slice0.lean ====
section
/-! SUPPORT. Small tests, each with its expected value taken from the spec (95_test_vectors.md or a rule
named beside it), and the witnesses: for every statement with hypotheses, a concrete state and operands
that meet all of them together. -/

namespace Sys2Proof.Tests

open Sys2Proof Sys2Proof.Machine

/-! ### Helpers -/

/-- `[n]`, `#n` and `[rb+n]` of R83. -/
def pos (n : Int) : Operand := { mode := .position, literal := n }
def imm (n : Int) : Operand := { mode := .immediate, literal := n }
def rel (n : Int) : Operand := { mode := .relative, literal := n }

/-- The machine of a program image, with values already offered. -/
def machine (image inputs : List Int) : State := State.new Config.default image inputs

/-- The state a step leaves. -/
def after (s : State) : State :=
  match step s with
  | .next t => t
  | .fault r => nomatch r
  | .refused _ => s

/-- The state of 95_test_vectors.md section 2.2 (`mem[0] = 9`, `mem[5] = 50`, `mem[7] = 70`, `rb = 3`),
with values waiting in both queues and room for one more in `outq`. -/
def sample : State :=
  { mem := [(0, 9), (5, 50), (7, 70)], pc := 20, rb := 3, status := .running, inq := [4, 6], outq := [8],
    config := { outCap := some 2 } }

/-- The same state with no input, and with a full output channel. -/
def starved : State := { sample with mem := [(20, 203), (21, -3)], inq := [] }
def full : State := { sample with mem := [(20, 104), (21, -5)], config := { outCap := some 1 } }

/-- The machines of program P7, with their outputs wired to each other's inputs. -/
def cyclic : Network :=
  { machines := [machine [104, 1, 3, 7, 4, 7, 99, 0] [], machine [3, 9, 1001, 9, 10, 9, 4, 9, 99, 0] []],
    channels := [⟨0, 1, [], []⟩, ⟨1, 0, [], []⟩] }

/-- A network in which both machines can step: each emits into a channel. -/
def busy : Network :=
  { machines := [machine [104, 1, 99] [], machine [104, 2, 99] []],
    channels := [⟨0, 1, [], []⟩, ⟨1, 0, [], []⟩] }

/-- A network in which neither machine can step: each waits for the other. -/
def waiting : Network :=
  { machines := [machine [3, 9, 99] [], machine [3, 9, 99] []],
    channels := [⟨0, 1, [], []⟩, ⟨1, 0, [], []⟩] }

/-! ### Well-formedness: the check refuses a write argument in immediate mode (R69) -/

theorem test_wf_add : (Instr.add (pos 1) (imm 2) (imm 3)).wf = false := by decide
theorem test_wf_mul : (Instr.mul (pos 1) (imm 2) (imm 3)).wf = false := by decide
theorem test_wf_input : (Instr.input (imm 3)).wf = false := by decide
theorem test_wf_less_than : (Instr.lessThan (rel 1) (imm 2) (imm 3)).wf = false := by decide
theorem test_wf_equals : (Instr.equals (rel 1) (imm 2) (imm 3)).wf = false := by decide
theorem test_wf_admits_other_modes :
    (Instr.add (imm 1) (imm 2) (rel 3)).wf = true ∧ (Instr.output (imm 3)).wf = true := by decide

/-! ### Decoding: words written out digit by digit from R61, R64, R66 (95_test_vectors.md 2.1) -/

theorem test_decode_add : decodeCells [21101, 5, 6, 0] = .ok (.add (imm 5) (imm 6) (rel 0)) := by rfl
theorem test_decode_mul : decodeCells [1002, 4, 3, 4] = .ok (.mul (pos 4) (imm 3) (pos 4)) := by rfl
theorem test_decode_input : decodeCells [203, 4] = .ok (.input (rel 4)) := by rfl
theorem test_decode_output : decodeCells [99004, 3] = .ok (.output (pos 3)) := by rfl
theorem test_decode_jump_if_true : decodeCells [91105, 1, 7] = .ok (.jumpIfTrue (imm 1) (imm 7)) := by rfl
theorem test_decode_jump_if_false : decodeCells [2206, -1, 2] = .ok (.jumpIfFalse (rel (-1)) (rel 2)) := by rfl
theorem test_decode_less_than : decodeCells [20007, 1, 2, 3] = .ok (.lessThan (pos 1) (pos 2) (rel 3)) := by rfl
theorem test_decode_equals : decodeCells [1108, 5, 6, 5] = .ok (.equals (imm 5) (imm 6) (pos 5)) := by rfl
theorem test_decode_adjust_rb : decodeCells [209, -1] = .ok (.adjustRb (rel (-1))) := by rfl
theorem test_decode_halt : decodeCells [12399] = .ok .halt := by rfl
theorem test_decode_negative : decodeCells [-99] = .error .negativeWord := by rfl
theorem test_decode_unknown :
    decodeCells [0] = .error .unknownOpcode ∧ decodeCells [98] = .error .unknownOpcode ∧
      decodeCells [100] = .error .unknownOpcode ∧ decodeCells [123456] = .error .unknownOpcode :=
  ⟨rfl, rfl, rfl, rfl⟩
theorem test_decode_bad_mode :
    decodeCells [3304] = .error (.badMode 1) ∧ decodeCells [13001] = .error (.badMode 2) := ⟨rfl, rfl⟩
theorem test_decode_write_target :
    decodeCells [11101] = .error (.invalidWriteTarget 3) ∧ decodeCells [103] = .error (.invalidWriteTarget 1) :=
  ⟨rfl, rfl⟩
theorem test_table_word : decodeTableWord 15 21101 = some (.add (imm 0) (imm 0) (rel 0)) := by rfl

/-! ### The argument resolver (95_test_vectors.md 2.2) -/

theorem test_read_position :
    readArg sample 1 (pos 5) = .ok 50 ∧ readArg sample 1 (pos 1000000) = .ok 0 ∧
      readArg sample 1 (pos (-1)) = .error (sample.addressFault 1 (-1)) := ⟨rfl, rfl, rfl⟩
theorem test_read_immediate :
    readArg sample 1 (imm 5) = .ok 5 ∧ readArg sample 1 (imm (-1)) = .ok (-1) := ⟨rfl, rfl⟩
theorem test_read_relative :
    readArg sample 1 (rel 4) = .ok 70 ∧ readArg sample 1 (rel (-3)) = .ok 9 ∧
      readArg sample 1 (rel (-4)) = .error (sample.addressFault 1 (-1)) := ⟨rfl, rfl, rfl⟩

/-! ### One step of each instruction (95_test_vectors.md 1 and 2.3 to 2.8) -/

theorem test_add_writes_over_its_own_word :
    (after (machine [1001, 0, -1, 0, 99] [])).mem.read 0 = 1000 ∧ (after (machine [1001, 0, -1, 0, 99] [])).pc = 4 := by
  decide
theorem test_add_destination_is_both_operands : (after (machine [1, 5, 5, 5, 99, 21] [])).mem.read 5 = 42 := by
  decide
theorem test_mul_negative : (after (machine [1102, -3, -4, 5, 99, 0] [])).mem.read 5 = 12 := by decide
theorem test_mul_is_exact :
    (after (machine [1102, 100000000000000000000, 100000000000000000000, 5, 99, 0] [])).mem.read 5 =
      10000000000000000000000000000000000000000 := by decide
theorem test_input_leaves_the_rest :
    (after (machine [3, 0, 99] [5, 6])).mem.read 0 = 5 ∧ (after (machine [3, 0, 99] [5, 6])).inq = [6] := by decide
theorem test_input_faults_before_it_starves :
    (after (machine [3, -1, 99] [])).status =
      .faulted { kind := .addressFault, pc := 0, word := 3, arg := some 1, addr := some (-1), reason := none } := by
  decide
theorem test_output_position :
    (after (machine [4, 3, 99, 77] [])).outq = [77] ∧ (after (machine [4, 3, 99, 77] [])).pc = 2 := by decide
theorem test_output_blocks : after full = full ∧ suspension full = some .outputBackpressure := by decide
theorem test_jump_if_true_negative_condition : (after (machine [1105, -1, 7, 99, 0, 0, 0, 99] [])).pc = 7 := by
  decide
theorem test_jump_if_true_not_taken : (after (machine [1105, 0, 7, 99] [])).pc = 3 := by decide
theorem test_jump_if_false_taken : (after (machine [1106, 0, 4, 99, 99] [])).pc = 4 := by decide
theorem test_jump_if_false_not_taken_never_faults :
    (after (machine [1106, 1, -5, 99] [])).pc = 3 ∧ (after (machine [1106, 1, -5, 99] [])).status = .running := by
  decide
theorem test_less_than_negative : (after (machine [1107, -1, 0, 5, 99, 7] [])).mem.read 5 = 1 := by decide
theorem test_less_than_equal_operands : (after (machine [1107, 5, 5, 5, 99, 7] [])).mem.read 5 = 0 := by decide
theorem test_equals_true : (after (machine [8, 5, 6, 5, 99, 3, 3] [])).mem.read 5 = 1 := by decide
theorem test_equals_false : (after (machine [1108, 5, 6, 5, 99, 7] [])).mem.read 5 = 0 := by decide
theorem test_adjust_rb_reads_with_the_old_rb :
    (after { machine [109, 1, 209, -1, 99] [] with pc := 2, rb := 1 }).rb = 110 := by decide
theorem test_adjust_rb_position : (after (machine [9, 3, 99, -4] [])).rb = -4 := by decide
theorem test_halt : after (machine [199] []) = { machine [199] [] with status := .halted } := by decide
theorem test_halt_is_final : after (after (machine [99] [])) = after (machine [99] []) := by decide
theorem test_invalid_write_target :
    after (machine [10001, 0, 0, 0, 99] []) =
      { machine [10001, 0, 0, 0, 99] [] with
        status := .faulted { kind := .invalidWriteTarget, pc := 0, word := 10001, arg := some 3, addr := none,
                             reason := none } } := by decide
theorem test_relative_write_fault :
    (after { machine [109, -10, 21101, 1, 1, 3, 99] [] with pc := 2, rb := -10 }).status =
      .faulted { kind := .addressFault, pc := 2, word := 21101, arg := some 3, addr := some (-7), reason := none } := by
  decide
theorem test_fetch_word : after (State.reset.withFetchWord 7 99) = { State.reset.withFetchWord 7 99 with status := .halted } := by
  decide

/-! ### Texts (R257, R83, R84) and networks (R238 to R241) -/

theorem test_image_text :
    imageOfText? "1002,4 ,3,\t-4,033\n".toList = some [1002, 4, 3, -4, 33] ∧ imageOfText? "1,,2".toList = none := by
  decide
theorem test_assembler_text :
    assembleText? "mul [4], #3, [4]\n.data 33".toList = some [1002, 4, 3, 4, 33] := by decide
theorem test_assembler_labels :
    assembleText? "loop: jmp #end+1\nend: mov [rb-2], [loop]\nnop".toList =
      some [1105, 1, 4, 1201, -2, 0, 0, 1105, 0, 0] := by decide
theorem test_global_step :
    (cyclic.globalStep 0).map Network.channels = some [⟨0, 1, [1], [1]⟩, ⟨1, 0, [], []⟩] ∧
      cyclic.globalStep 1 = none := by decide
theorem test_feed_forward :
    (feedForward 2 [] [machine [104, 7, 99] [], machine [3, 0, 99] []]).map (fun r => (r.1.map (fun t => t.mem.read 0), r.2)) =
      some ([104, 7], []) := by decide

/-! ### Witnesses: what the statements assume can be met -/

theorem witness_UndecodedDigitsAreIgnored :
    Opcode.ofNumber? (1105 % 100) = some .jumpIfTrue ∧ Opcode.ofNumber? (12399 % 100) = some .halt := by decide

theorem witness_DecodeInvertsEncode :
    (Instr.add (rel (-7)) (imm 2) (rel 0)).wf = true ∧ (Instr.mul (imm (-1)) (pos 0) (pos 3)).wf = true ∧
      (Instr.input (rel (-3))).wf = true ∧ (Instr.output (imm (-5))).wf = true ∧
      (Instr.jumpIfTrue (rel 1) (imm (-5))).wf = true ∧ (Instr.jumpIfFalse (pos 1) (rel 2)).wf = true ∧
      (Instr.lessThan (imm 1) (imm 2) (pos 3)).wf = true ∧ (Instr.equals (rel 1) (rel 2) (rel 3)).wf = true ∧
      (Instr.adjustRb (rel (-1))).wf = true ∧ Instr.halt.wf = true := by decide

theorem witness_DecodedInstrIsTheWordsDigits :
    decode 91105 (fun k => (k : Int) - 2) = .ok (.jumpIfTrue (imm (-1)) (imm 0)) := by rfl

/-- Each of the four right-hand sides is met, `badMode` and `invalidWriteTarget` at their least and
greatest argument. -/
theorem witness_IllegalWordsByName :
    (-1 : Int) < 0 ∧ (0 : Nat) % 100 ∉ [1, 2, 3, 4, 5, 6, 7, 8, 9, 99] ∧
      98 % 100 ∉ [1, 2, 3, 4, 5, 6, 7, 8, 9, 99] ∧
      3 ≤ digit 304 2 ∧ (3 ≤ digit 30001 4 ∧ digit 30001 2 < 3 ∧ digit 30001 3 < 3) ∧
      (Opcode.input.writePosition? = some 1 ∧ digit 103 2 = 1) ∧
      (Opcode.add.writePosition? = some 3 ∧ digit 10001 4 = 1 ∧ digit 10001 3 < 3 ∧ digit 10001 2 < 3) := by decide

theorem witness_PseudoInstructions :
    (readArg sample 1 (rel 2) = .ok 50 ∧ writeArg sample 3 (rel (-3)) = .ok 0) ∧
      (readArg sample 2 (imm 0) = .ok 0 ∧ (0 : Int) ≤ 0) := ⟨⟨rfl, rfl⟩, rfl, by decide⟩

theorem witness_ArgumentsResolveByMode : (0 : Int) ≤ 0 ∧ 0 ≤ (-3 : Int) + sample.rb := by decide

/-- The first argument at fault, and the last one after two that do not fault. -/
theorem witness_NegativeEffectiveAddressFaults :
    ((Instr.add (pos (-1)) (pos (-2)) (rel 0)).wf = true ∧
      effectiveAddress (pos (-1)) sample.rb = some (-1) ∧ (-1 : Int) < 0) ∧
    ((Instr.mul (pos 0) (imm (-9)) (rel (-4))).wf = true ∧
      effectiveAddress (pos 0) sample.rb = some 0 ∧ effectiveAddress (imm (-9)) sample.rb = none ∧
      effectiveAddress (rel (-4)) sample.rb = some (-1)) := by decide

/-- The premises of AddStoresTheSum, MulStoresTheProduct, LessThanStoresOneOrZero and
EqualsStoresOneOrZero. -/
theorem witness_three_arguments :
    readArg sample 1 (pos 5) = .ok 50 ∧ readArg sample 2 (rel (-3)) = .ok 9 ∧ writeArg sample 3 (rel 2) = .ok 5 :=
  ⟨rfl, rfl, rfl⟩

theorem witness_ComparisonsWriteOnlyOneOrZero :
    (∃ t, result (.lessThan (pos 5) (imm 51) (pos 0)) sample = .completed t) ∧
      (∃ t, result (.equals (pos 5) (imm 51) (pos 0)) sample = .completed t) ∧
      readArg sample 1 (pos 9) = .ok 0 ∧ writeArg sample 3 (pos 0) = .ok 0 := ⟨⟨_, rfl⟩, ⟨_, rfl⟩, rfl, rfl⟩

theorem witness_InputConsumesTheOldestValue :
    writeArg sample 1 (rel (-3)) = .ok 0 ∧ sample.inq = 4 :: [6] := ⟨rfl, rfl⟩

/-- One place below the capacity, and no capacity at all. -/
theorem witness_OutputAppendsTheValue :
    readArg sample 1 (imm (-5)) = .ok (-5) ∧ (∀ c, sample.config.outCap = some c → sample.outq.length < c) ∧
      ∀ c, (machine [] []).config.outCap = some c → (machine [] []).outq.length < c := by
  exact ⟨rfl, fun c h => by cases h; decide, fun c h => by cases h⟩

/-- The premises of JumpIfTrueJumpsOnNonZero and JumpIfFalseJumpsOnZero, in both of their clauses. -/
theorem witness_jumps :
    readArg sample 1 (imm (-1)) = .ok (-1) ∧ readArg sample 1 (imm 0) = .ok 0 ∧ readArg sample 2 (imm 0) = .ok 0 :=
  ⟨rfl, rfl, rfl⟩

theorem witness_TakenJumpToNegativeTargetFaults :
    (readArg sample 1 (imm 1) = .ok 1 ∧ readArg sample 1 (pos 9) = .ok 0) ∧ readArg sample 2 (imm (-1)) = .ok (-1) :=
  ⟨⟨rfl, rfl⟩, rfl⟩

theorem witness_AdjustRbAddsTheValue : readArg sample 1 (rel (-3)) = .ok 9 := by rfl

theorem witness_HaltStopsTheMachine : (after (machine [99] [])).status = .halted := by decide

/-- Each instruction of ThreeArgumentFrame answers a next state, with a destination and with none. -/
theorem witness_ThreeArgumentFrame :
    (∀ i ∈ [Instr.add (pos 5) (imm 1) (rel 4), .mul (pos 5) (imm 1) (rel 4), .lessThan (pos 5) (imm 1) (rel 4),
        .equals (pos 5) (imm 1) (rel 4)], ∃ t, exec i sample = .next t) ∧
      writeArg sample 3 (rel 4) = .ok 7 ∧
      (∃ t, exec (.add (pos 5) (imm 1) (rel (-4))) sample = .next t) ∧
      writeArg sample 3 (rel (-4)) = .error (sample.addressFault 3 (-1)) := by
  refine ⟨fun i hi => ?_, rfl, ⟨_, rfl⟩, rfl⟩
  cases i <;> exact ⟨_, rfl⟩

theorem witness_InputFrame :
    (∃ t, exec (.input (rel 4)) sample = .next t) ∧ writeArg sample 1 (rel 4) = .ok 7 ∧
      (∃ t, exec (.input (pos (-1))) sample = .next t) ∧
      writeArg sample 1 (pos (-1)) = .error (sample.addressFault 1 (-1)) ∧
      exec (.input (rel (-3))) starved = .next starved := ⟨⟨_, rfl⟩, rfl, ⟨_, rfl⟩, rfl, rfl⟩

theorem witness_NonStoringFrame :
    ∀ i ∈ [Instr.output (imm 1), .jumpIfTrue (imm 1) (imm 2), .jumpIfFalse (imm 1) (imm 2), .adjustRb (imm 1), .halt],
      ∃ t, exec i sample = .next t := by
  intro i _
  cases i <;> exact ⟨_, rfl⟩

/-- A negative word, an unknown opcode, and bad modes at the first and the last argument. -/
theorem witness_IllegalWordRaisesDecodeFault :
    ((machine [-1] []).status = .running ∧ (machine [-1] []).mem.read 0 = -1) ∧
      ((machine [98] []).mem.read 0 = 98 ∧ 98 % 100 ∉ [1, 2, 3, 4, 5, 6, 7, 8, 9, 99]) ∧
      ((machine [301] []).mem.read 0 = 301 ∧ Opcode.ofNumber? (301 % 100) = some .add ∧ 3 ≤ digit 301 2) ∧
      ((machine [91101] []).mem.read 0 = 91101 ∧ Opcode.add.arity = 3 ∧ 3 ≤ digit 91101 4 ∧
        digit 91101 2 < 3 ∧ digit 91101 3 < 3) := by decide

theorem witness_ImmediateWriteTargetFaults :
    ((machine [12007] []).status = .running ∧ (machine [12007] []).mem.read 0 = 12007 ∧ 12007 % 100 = 7 ∧
        digit 12007 2 < 3 ∧ digit 12007 3 < 3 ∧ digit 12007 4 = 1) ∧
      ((machine [103] []).mem.read 0 = 103 ∧ 103 % 100 = 3 ∧ digit 103 2 = 1) := by decide

theorem witness_FaultCommitsNothing :
    ∃ t f, (machine [3, -1] [4]).status = .running ∧ step (machine [3, -1] [4]) = .next t ∧ t.status = .faulted f :=
  ⟨_, _, rfl, rfl, rfl⟩

theorem witness_ImmediateAddressFaultIsNeverRaised :
    (∃ f, result (.output (pos (-1))) sample = .faulted f) ∧ ∃ f, attempt (machine [] []) = .faulted f :=
  ⟨⟨_, rfl⟩, ⟨_, rfl⟩⟩

theorem witness_StoppedMachineStaysStopped :
    (after (machine [99] [])).status = .halted ∧ ∃ f, (after (machine [] [])).status = .faulted f :=
  ⟨by decide, _, rfl⟩

/-- Both suspensions happen: the premises of SuspensionChangesNothing, OfferedInputResumes and the two
statements of when a step suspends. -/
theorem witness_suspensions :
    suspension starved = some .inputStarvation ∧ suspension full = some .outputBackpressure ∧
      sample.config.outCap = some 2 ∧ (machine [] []).config.outCap = none := by decide

theorem witness_TakenOutputResumes :
    suspension full = some .outputBackpressure ∧ full.config.outCap = some (([] : List Int).length + 1) ∧
      full.outq = 8 :: [] := by decide

theorem witness_StepExecutesTheDecodedInstr :
    starved.status = .running ∧
      decode (starved.mem.read starved.pc) (fun k => starved.mem.read (starved.pc + k)) = .ok (.input (rel (-3))) :=
  ⟨rfl, rfl⟩

theorem witness_StepExecutesTheEncodedInstr :
    (machine [21101, 5, 6, 0] []).status = .running ∧ (Instr.add (imm 5) (imm 6) (rel 0)).wf = true ∧
      ∀ (k : Nat) (x : Int), (encode (.add (imm 5) (imm 6) (rel 0)))[k]? = some x →
        (machine [21101, 5, 6, 0] []).mem.read ((machine [21101, 5, 6, 0] []).pc + k) = x := by
  refine ⟨rfl, rfl, fun k x h => ?_⟩
  match k, h with
  | 0, h => cases h; rfl
  | 1, h => cases h; rfl
  | 2, h => cases h; rfl
  | 3, h => cases h; rfl

theorem witness_StepIsTheInstructionCycle : sample.status = .running := by rfl

theorem witness_PlacedWordIsExecuted : decodeTableWord 7 99 = some .halt ∧
    decodeTableWord 15 22202 = some (.mul (rel 0) (rel 0) (rel 0)) := ⟨rfl, rfl⟩

/-- Every clause of PcAdvancesByTheTable: completed, with each jump taken and not, faulted, suspended. -/
theorem witness_PcAdvancesByTheTable :
    (∀ i ∈ [Instr.add (pos 5) (imm 1) (rel 4), .input (rel 4), .output (imm 1), .adjustRb (imm 1), .halt,
        .jumpIfTrue (imm 1) (imm 0), .jumpIfTrue (imm 0) (imm (-1)), .jumpIfFalse (imm 0) (imm 0),
        .jumpIfFalse (imm 1) (imm (-1))], ∃ t, result i sample = .completed t) ∧
      (∃ f, result (.jumpIfTrue (imm 1) (imm (-1))) sample = .faulted f) ∧
      ∃ r, result (.input (pos 0)) starved = .suspended r := by
  refine ⟨fun i hi => ?_, ⟨_, rfl⟩, ⟨_, rfl⟩⟩
  simp only [List.mem_cons, List.not_mem_nil, or_false] at hi
  rcases hi with rfl | rfl | rfl | rfl | rfl | rfl | rfl | rfl | rfl <;> exact ⟨_, rfl⟩

theorem witness_RbIsPurelyAdditive :
    ∃ t, step (machine [109, -4] []) = .next t ∧ t.rb ≠ (machine [109, -4] []).rb ∧
      (machine [109, -4] []).status = .running ∧ (machine [109, -4] []).fetch = .ok (.adjustRb (imm (-4))) ∧
      readArg (machine [109, -4] []) 1 (imm (-4)) = .ok (-4) := ⟨_, rfl, by decide, rfl, rfl, rfl⟩

theorem witness_StatusTransitions :
    (∃ t, sample.status = .running ∧ step sample = .next t) ∧ suspension starved = some .inputStarvation ∧
      (after (machine [99] [])).status ≠ .running := ⟨⟨_, rfl, rfl⟩, by decide, by decide⟩

theorem witness_QueuesAreFifo :
    (∃ o t, run 1 (machine [3, 0, 99] [5, 6]) = (o, t) ∧ t.inq = [6]) ∧
      (∃ t, result (.input (pos 0)) sample = .completed t) ∧ ∃ t, result (.output (pos 0)) sample = .completed t :=
  ⟨⟨_, _, rfl, by decide⟩, ⟨_, rfl⟩, ⟨_, rfl⟩⟩

theorem witness_ReadAfterWrite : (3 : Nat) ≠ 2 ∧ ∀ e ∈ [((0 : Nat), (9 : Int)), (3, 0)], e.1 ≠ 2 := by decide

theorem witness_CanonicalMemoriesThatReadAlikeAreEqual :
    sample.mem.wf = true ∧ ((sample.mem.write 1 5).write 1 0).wf = true ∧
      ∀ a, sample.mem.read a = ((sample.mem.write 1 5).write 1 0).read a := by
  have h : (sample.mem.write 1 5).write 1 0 = sample.mem := by decide
  rw [h]
  exact ⟨by decide, by decide, fun _ => rfl⟩

theorem witness_NewMachineHoldsTheImage :
    ([1, -2] : List Int)[1]? = some (-2) ∧ ([1, -2] : List Int).length ≤ 2 := by decide

theorem witness_PeekAndPoke : (0 : Int) ≤ 0 ∧ (-1 : Int) < 0 := by decide

theorem witness_HostQueueOperations :
    ((machine [] []).outq = [] ∧ sample.outq = 8 :: []) ∧
      (writeArg sample 1 (pos 0) = .ok 0 ∧ sample.inq ++ [7] = 4 :: [6, 7]) ∧
      (writeArg starved 1 (rel (-3)) = .ok 0 ∧ starved.inq ++ [7] = 7 :: []) :=
  ⟨by decide, ⟨rfl, rfl⟩, rfl, rfl⟩

/-- The invariant holds of a state with memory, values in both queues and a bounded channel, and a step
from it answers a next state. -/
theorem witness_StepKeepsTheInvariant : sample.Inv ∧ ∃ t, step sample = .next t := by
  refine ⟨⟨by decide, ?_, ?_⟩, ⟨_, rfl⟩⟩
  · intro f h
    cases h
  · intro c h
    cases h
    decide

theorem witness_ReachableStatesMeetTheInvariant :
    Reachable (after (machine [99] [])) ∧ (State.reset).Inv := by
  refine ⟨.stepped (.constructed Config.default [99] []) rfl, by decide, ?_, ?_⟩
  · intro f h
    cases h
  · intro c h
    cases h

/-- A run with each outcome, and one that exhausts its budget, from a state with no outcome due. -/
theorem witness_runs :
    (machine [1105, 1, 0] []).runEnd? = none ∧
      step (machine [1105, 1, 0] []) = .next (after (machine [1105, 1, 0] [])) ∧ starved.runEnd?.isSome = true ∧
    (run 2 (machine [99] [])).1 = some .halted ∧ (run 2 (machine [] [])).1 = some (.faulted .decodeFault) ∧
      (run 2 starved).1 = some (.suspended .inputStarvation) ∧ (run 1 (machine [1105, 1, 0] [])).1 = none := by
  refine ⟨by decide, rfl, by decide, ?_⟩
  decide

theorem witness_GlobalStepsCommute :
    busy.wired = true ∧ (busy.globalStep 0).isSome = true ∧ (busy.globalStep 1).isSome = true := by decide

theorem witness_StuckNetworkIsIndependentOfTheSchedule :
    busy.wired = true ∧ (busy.runSchedule [0, 1, 0, 1]).any Network.stuck = true ∧
      (busy.runSchedule [1, 1, 0, 0]).any Network.stuck = true := by decide

theorem witness_GlobalStepTouchesOnlyItsMachine :
    let n : Network := { busy with machines := busy.machines ++ [machine [104, 1, 99] []] }
    (n.globalStep 2).isSome = true ∧ n.channels[0]? = some ⟨0, 1, [], []⟩ ∧ 0 ≠ 2 ∧ 1 ≠ 2 := by decide

/-- A channel that has carried two values, of which one is taken and one is queued; its consumer can step
and takes the queued one, and its producer can step and emits a third. -/
def half : Network :=
  { machines := [machine [104, 7, 99] [], machine [3, 9, 99] []],
    channels := [⟨0, 1, [6], [5, 6]⟩, ⟨1, 0, [], []⟩] }

/-- The channel's producer steps, and its consumer steps; what each step emits or leaves of the queue. -/
theorem witness_ChannelsAreFifo :
    half.wired = true ∧ half.channels[0]? = some ⟨0, 1, [6], [5, 6]⟩ ∧ ([5, 6] : List Int) = [5] ++ [6] ∧
      (half.globalStep 0).isSome = true ∧ (half.globalStep 1).isSome = true ∧
      (∃ v t, half.view? 0 = some v ∧ step v = .next t ∧ emittedBetween v t = [7]) ∧
      ∃ v t, half.view? 1 = some v ∧ step v = .next t ∧ v.inq = [6] ∧ t.inq = [] :=
  ⟨by decide, by decide, by decide, by decide, by decide, ⟨_, _, rfl, rfl, by decide⟩,
    ⟨_, _, rfl, rfl, by decide, by decide⟩⟩

/-- The values of the consumer's and the producer's step, by hand from R237: 6 leaves the front of the
channel, 7 enters at its end. -/
theorem test_channel_after_steps :
    (half.globalStep 1).map (fun n => n.channels[0]?) = some (some ⟨0, 1, [], [5, 6]⟩) ∧
      (half.globalStep 0).map (fun n => n.channels[0]?) = some (some ⟨0, 1, [6, 7], [5, 6, 7]⟩) := by decide

/-- A machine with one end unwired, which steps, and its view. -/
theorem witness_GlobalStepIsOneStepOfItsMachine :
    let n : Network := { half with channels := [⟨0, 1, [6], [5, 6]⟩] }
    (n.globalStep 1).isSome = true ∧ n.inChannel? 0 = none ∧ n.outChannel? 1 = none ∧
      ∃ v t, n.view? 1 = some v ∧ v.status = .running ∧ suspension v = none ∧ step v = .next t :=
  ⟨by decide, by decide, by decide, _, _, rfl, rfl, by decide, rfl⟩

theorem witness_DeadlockedNetworkWaits :
    waiting.deadlocked = true ∧ waiting.runSchedule [] = some waiting ∧
      ∃ m, waiting.machines[0]? = some m ∧ m.status = .running := ⟨by decide, by decide, _, rfl, rfl⟩

end Sys2Proof.Tests
end

section
/-! The invariant along a machine's life (R45, R131, R212, R222): what each way a step can end leaves of
it, then every step, every host operation and every reachable state. -/

namespace Sys2Proof

/-! ### What the decoder's answers say of the word -/

theorem Opcode.arity_le_three (op : Opcode) : op.arity ≤ 3 := by cases op <;> decide

theorem Opcode.one_le_writePosition {op : Opcode} {k : Nat} (h : op.writePosition? = some k) :
    1 ≤ k := by
  cases op <;> cases h <;> decide

/-- The mode decoded for argument `k` is the one its digit of the word names (R61, R66). -/
theorem digit_of_decodeModes {w n k : Nat} {ms : List Mode} {m : Mode}
    (h : decodeModes w 1 n = .ok ms) (hk : 1 ≤ k) (hm : ms[k - 1]? = some m) :
    digit w (k + 1) = m.toDigit := by
  obtain ⟨hlt, rfl⟩ := List.getElem?_eq_some_iff.1 hm
  have hdigit := (decodeModes_ok_iff.1 h).2 (k - 1) hlt
  rw [Nat.add_sub_cancel' hk] at hdigit
  exact Mode.ofDigit?_eq_some.1 hdigit

namespace Machine

/-! ### The fault records a step leaves -/

theorem State.addressFault_consistent (s : State) {k : Nat} {a : Int} (h1 : 1 ≤ k) (h3 : k ≤ 3)
    (ha : a < 0) : (s.addressFault k a).consistent :=
  ⟨rfl, ⟨k, rfl, h1, h3⟩, a, rfl, ha⟩

@[simp] theorem State.decodeErrorFault_pc (s : State) (e : DecodeError) :
    (s.decodeErrorFault e).pc = s.pc := by
  cases e <;> rfl

/-- The record of a word the decoder rejects fits that word (R81, R213, R215). -/
theorem State.decodeErrorFault_consistent {s : State} {lit : Nat → Int} {e : DecodeError}
    (h : decode (s.mem.read s.pc) lit = .error e) : (s.decodeErrorFault e).consistent := by
  rcases decode_error_cases h with ⟨hneg, rfl⟩ | ⟨h0, hop, rfl⟩ | ⟨op, k, h0, -, hms, rfl⟩ |
    ⟨op, ms, k, h0, hop, hms, hwp, hm, rfl⟩
  · exact ⟨rfl, .inl ⟨rfl, rfl, hneg⟩⟩
  · exact ⟨rfl, .inr (.inl ⟨rfl, rfl, h0, hop⟩)⟩
  · obtain ⟨h1, hk, h3, -⟩ := decodeModes_error_iff.1 hms
    have harity := op.arity_le_three
    exact ⟨rfl, .inr (.inr ⟨k, rfl, rfl, h0, h1, by omega, h3⟩)⟩
  · have hdigit := digit_of_decodeModes hms (Opcode.one_le_writePosition hwp) hm
    exact ⟨rfl, rfl, k, rfl, h0, hdigit, op, hop, hwp⟩

/-- An instruction the decoder accepts has no immediate write target, so the only fault left to it is a
negative address (R69, R74). -/
theorem FaultOf.eq_addressFault {i : Instr} {s : State} {f : FaultRecord} (hwf : i.wf = true)
    (h : FaultOf i s f) : ∃ k a, 1 ≤ k ∧ k ≤ 3 ∧ a < 0 ∧ f = s.addressFault k a := by
  cases h with
  | address k a h1 h3 ha => exact ⟨k, a, h1, h3, ha, rfl⟩
  | writeTarget k o ho himm => simp [Instr.wf, ho, Operand.mayBeWritten, himm] at hwf

/-- A step that faults leaves a consistent record that names the instruction at `pc` (R212, R222). -/
theorem attempt_faulted_consistent {s : State} {f : FaultRecord} (h : attempt s = .faulted f) :
    f.consistent ∧ f.pc = s.pc := by
  rcases attempt_cases s with ⟨i, hfetch, -, hr⟩ | ⟨e, he, ha⟩
  · rw [h] at hr
    cases hr with
    | faulted hf =>
      obtain ⟨k, a, h1, h3, ha, rfl⟩ := hf.eq_addressFault (fetch_wf hfetch)
      exact ⟨s.addressFault_consistent h1 h3 ha, rfl⟩
  · rw [h] at ha
    cases ha
    exact ⟨State.decodeErrorFault_consistent he, s.decodeErrorFault_pc e⟩

/-! ### The effects of a completed instruction -/

theorem attempt_completed_effect {s t : State} (h : attempt s = .completed t) : Effect s t := by
  rcases attempt_cases s with ⟨i, -, -, hr⟩ | ⟨e, -, ha⟩
  · rw [h] at hr
    cases hr with
    | completed he => exact he
  · rw [h] at ha
    cases ha

theorem Effect.mem_wf {s t : State} (h : Effect s t) (hm : s.mem.wf = true) : t.mem.wf = true := by
  cases h with
  | stored a v => exact Memory.wf_write hm a v
  | consumed a v _ _ => exact Memory.wf_write hm a v
  | emitted | jumped | passed | adjusted | halted => exact hm

theorem Effect.status_eq {s t : State} (h : Effect s t) :
    t.status = s.status ∨ t.status = .halted := by
  cases h with
  | halted => exact .inr rfl
  | stored | consumed | emitted | jumped | passed | adjusted => exact .inl rfl

theorem Effect.config_eq {s t : State} (h : Effect s t) : t.config = s.config := by
  cases h <;> rfl

/-- A channel that is not full has room for one value more (R131). -/
theorem State.outputFull_eq_false_iff (s : State) :
    s.outputFull = false ↔ ∀ c, s.config.outCap = some c → s.outq.length < c := by
  unfold State.outputFull
  cases s.config.outCap <;> simp

theorem Effect.outq_le {s t : State} (h : Effect s t)
    (hcap : ∀ c, s.config.outCap = some c → s.outq.length ≤ c) (c : Nat)
    (hc : s.config.outCap = some c) : t.outq.length ≤ c := by
  cases h with
  | emitted v hroom => simpa using s.outputFull_eq_false_iff.1 hroom c hc
  | stored | consumed | jumped | passed | adjusted | halted => exact hcap c hc

theorem Effect.keeps_inv {s t : State} (h : Effect s t) (hs : s.status = .running) (hi : s.Inv) :
    t.Inv where
  memory := h.mem_wf hi.memory
  fault f hf := by rcases h.status_eq with ht | ht <;> simp [ht, hs] at hf
  channel c hc := h.outq_le hi.channel c (h.config_eq ▸ hc)

/-! ### Steps -/

theorem State.takeFault_inv {s : State} {f : FaultRecord} (hi : s.Inv)
    (hf : f.consistent ∧ f.pc = s.pc) : (s.takeFault f).Inv where
  memory := hi.memory
  fault g hg := by cases hg; exact hf
  channel := hi.channel

/-- What a step can do: it leaves the state as it was, completes an instruction of a Running machine, or
takes the fault of its attempt. -/
theorem step_cases {s t : State} (h : step s = .next t) :
    t = s ∨ (s.status = .running ∧ Effect s t) ∨ ∃ f, attempt s = .faulted f ∧ t = s.takeFault f := by
  by_cases hs : s.status = .running
  · rw [step_running hs] at h
    cases h
    cases ha : attempt s with
    | completed u => exact .inr (.inl ⟨hs, attempt_completed_effect ha⟩)
    | faulted f => exact .inr (.inr ⟨f, rfl, rfl⟩)
    | suspended r => exact .inl rfl
  · rw [step_stopped hs] at h
    cases h
    exact .inl rfl

theorem step_keeps_inv {s t : State} (hi : s.Inv) (h : step s = .next t) : t.Inv := by
  rcases step_cases h with rfl | ⟨hs, he⟩ | ⟨f, ha, rfl⟩
  · exact hi
  · exact he.keeps_inv hs hi
  · exact State.takeFault_inv hi (attempt_faulted_consistent ha)

theorem step_config {s t : State} (h : step s = .next t) : t.config = s.config := by
  rcases step_cases h with rfl | ⟨-, he⟩ | ⟨f, -, rfl⟩
  · rfl
  · exact he.config_eq
  · rfl

/-! ### Host operations -/

/-- What a host operation can do: nothing, one write to memory, a value more at the end of `inq`, or one
less at the front of `outq` (R58, R59, R126, R127). -/
theorem State.afterHostOp_cases (s : State) (op : HostOp) :
    s.afterHostOp op = s ∨ (∃ a v, s.afterHostOp op = s.writeMem a v) ∨
      (∃ v, s.afterHostOp op = s.setInq (s.inq ++ [v])) ∨
      ∃ v rest, s.outq = v :: rest ∧ s.afterHostOp op = { s with outq := rest } := by
  cases op with
  | poke a v =>
    by_cases ha : a < 0
    · exact .inl (by simp [State.afterHostOp, State.poke, ha])
    · exact .inr (.inl ⟨a.toNat, v, by simp [State.afterHostOp, State.poke, ha]⟩)
  | offerInput v => exact .inr (.inr (.inl ⟨v, rfl⟩))
  | takeOutput =>
    cases hq : s.outq with
    | nil => exact .inl (by simp [State.afterHostOp, State.takeOutput, hq])
    | cons v rest =>
      exact .inr (.inr (.inr ⟨v, rest, rfl, by simp [State.afterHostOp, State.takeOutput, hq]⟩))

theorem State.afterHostOp_keeps_inv {s : State} (op : HostOp) (hi : s.Inv) :
    (s.afterHostOp op).Inv := by
  rcases s.afterHostOp_cases op with h | ⟨a, v, h⟩ | ⟨v, h⟩ | ⟨v, rest, hq, h⟩ <;> rw [h]
  · exact hi
  · exact ⟨Memory.wf_write hi.memory a v, hi.fault, hi.channel⟩
  · exact ⟨hi.memory, hi.fault, hi.channel⟩
  · refine ⟨hi.memory, hi.fault, fun c hc => ?_⟩
    have hle : s.outq.length ≤ c := hi.channel c hc
    rw [hq, List.length_cons] at hle
    exact Nat.le_of_succ_le hle

theorem State.afterHostOp_config (s : State) (op : HostOp) :
    (s.afterHostOp op).config = s.config := by
  rcases s.afterHostOp_cases op with h | ⟨a, v, h⟩ | ⟨v, h⟩ | ⟨v, rest, -, h⟩ <;> rw [h] <;> rfl

/-! ### The whole life of a machine -/

theorem State.new_inv (config : Config) (image inputs : List Int) :
    (State.new config image inputs).Inv where
  memory := Memory.wf_load Memory.wf_nil 0 image
  fault _ hf := nomatch hf
  channel c _ := Nat.zero_le c

theorem Reachable.inv {s : State} (h : Reachable s) : s.Inv := by
  induction h with
  | constructed config image inputs => exact State.new_inv config image inputs
  | stepped _ hstep ih => exact step_keeps_inv ih hstep
  | host op _ ih => exact State.afterHostOp_keeps_inv op ih

/-- Settles O52: the invariant holds of every new machine and is kept by every step and every host
operation, so induction along `Reachable` gives it for a machine's whole life; neither writes `config`. -/
theorem reachableStatesMeetTheInvariant : Obligations.ReachableStatesMeetTheInvariant :=
  ⟨fun _ op hi => State.afterHostOp_keeps_inv op hi, fun _ h => h.inv, fun _ _ h => step_config h,
    State.afterHostOp_config⟩

end Machine

end Sys2Proof
end

section
/-! The frames of the instructions and their marks on `pc` and `status` (R23, R28, R34): which state each
instruction leaves when it completes, said once, then read field by field. -/

namespace Sys2Proof

/-! ### The lengths of the opcodes (R65) -/

theorem Opcode.length_eq_four {op : Opcode} (h : op ∈ [.add, .mul, .lessThan, .equals]) :
    op ∉ [.jumpIfTrue, .jumpIfFalse, .halt] ∧ op.length = 4 := by
  revert op
  decide

theorem Opcode.length_eq_two {op : Opcode} (h : op ∈ [.input, .output, .adjustRb]) :
    op ∉ [.jumpIfTrue, .jumpIfFalse, .halt] ∧ op.length = 2 := by
  revert op
  decide

namespace Machine

/-! ### What each instruction leaves when it completes -/

/-- The states an instruction can complete in, each with what its arguments resolved to. `Effect` says
which updates are made; this says which instruction makes them, and where. -/
inductive CompletionOf (s : State) : Instr → State → Prop where
  | stored {i : Instr} {d : Operand} {a3 : Nat} (v : Int) : i.writeOperand? = some (3, d) →
      writeArg s 3 d = .ok a3 → CompletionOf s i ((s.writeMem a3 v).advance 4)
  | consumed {d : Operand} {a1 : Nat} {v : Int} {rest : List Int} : writeArg s 1 d = .ok a1 →
      s.inq = v :: rest → CompletionOf s (.input d) (((s.writeMem a1 v).setInq rest).advance 2)
  | emitted {a : Operand} {v : Int} : readArg s 1 a = .ok v → s.outputFull = false →
      CompletionOf s (.output a) ((s.emit v).advance 2)
  | jumpedIfTrue {c target : Operand} {v1 v2 : Int} {n : Nat} : readArg s 1 c = .ok v1 →
      readArg s 2 target = .ok v2 → (n : Int) = (if v1 ≠ 0 then v2 else s.pc + 3) →
      CompletionOf s (.jumpIfTrue c target) (s.setPc n)
  | jumpedIfFalse {c target : Operand} {v1 v2 : Int} {n : Nat} : readArg s 1 c = .ok v1 →
      readArg s 2 target = .ok v2 → (n : Int) = (if v1 = 0 then v2 else s.pc + 3) →
      CompletionOf s (.jumpIfFalse c target) (s.setPc n)
  | adjusted {a : Operand} {v : Int} : readArg s 1 a = .ok v →
      CompletionOf s (.adjustRb a) ((s.addRb v).advance 2)
  | halted : CompletionOf s .halt s.stop

theorem CompletionOf.of_store {f : Int → Int → Int} {a b d : Operand} {i : Instr} {s t : State}
    (hi : i.writeOperand? = some (3, d)) (h : storeResult f a b d s = .completed t) :
    CompletionOf s i t := by
  rcases storeResult_cases f a b d s with ⟨v1, v2, a3, -, -, h3, hr⟩ | ⟨g, -, hr⟩ <;>
    rw [hr] at h <;> cases h
  exact .stored _ hi h3

/-- A jump that completes leaves `pc` at its target, which is then not negative, or past its own three
cells (R150, R151, R152). -/
theorem jumpResult_completed {taken : Int → Bool} {c target : Operand} {s t : State}
    (h : jumpResult taken c target s = .completed t) :
    ∃ (v1 v2 : Int) (n : Nat), readArg s 1 c = .ok v1 ∧ readArg s 2 target = .ok v2 ∧
      (n : Int) = (if taken v1 then v2 else s.pc + 3) ∧ t = s.setPc n := by
  cases hargs : resolveTwo s c target with
  | error f => simp [jumpResult, hargs] at h
  | ok p =>
    obtain ⟨v1, v2⟩ := p
    obtain ⟨h1, h2⟩ := resolveTwo_ok_iff.1 hargs
    rw [jumpResult_of_args h1 h2] at h
    by_cases htaken : taken v1 = true
    · by_cases hneg : v2 < 0
      · simp [htaken, hneg] at h
      · rw [if_pos htaken, if_neg hneg] at h
        cases h
        exact ⟨v1, v2, v2.toNat, h1, h2, by simp [htaken, not_lt.1 hneg], rfl⟩
    · rw [if_neg htaken] at h
      cases h
      exact ⟨v1, v2, s.pc + 3, h1, h2, by simp [htaken], rfl⟩

/-- The inversion of a completed instruction, with the instruction named. -/
theorem result_completed {i : Instr} {s t : State} (h : result i s = .completed t) :
    CompletionOf s i t := by
  cases i with
  | add a b d => exact .of_store rfl h
  | mul a b d => exact .of_store rfl h
  | lessThan a b d => exact .of_store rfl h
  | equals a b d => exact .of_store rfl h
  | jumpIfTrue c target =>
    obtain ⟨v1, v2, n, h1, h2, hn, rfl⟩ := jumpResult_completed h
    exact .jumpedIfTrue h1 h2 (by simpa [condNonZero] using hn)
  | jumpIfFalse c target =>
    obtain ⟨v1, v2, n, h1, h2, hn, rfl⟩ := jumpResult_completed h
    exact .jumpedIfFalse h1 h2 (by simpa [condZero] using hn)
  | halt => cases h; exact .halted
  | input d =>
    simp only [result, inputResult] at h
    cases h1 : writeArg s 1 d <;> cases hq : s.inq <;> simp only [h1, hq] at h <;> cases h
    exact .consumed h1 hq
  | output a =>
    simp only [result, outputResult] at h
    cases h1 : readArg s 1 a <;> cases hfull : s.outputFull <;> simp [h1, hfull] at h
    subst h
    exact .emitted h1 hfull
  | adjustRb a =>
    simp only [result, adjustRbResult] at h
    cases h1 : readArg s 1 a <;> simp only [h1] at h <;> cases h
    exact .adjusted h1

/-- Everything `exec` can do: complete, take a fault, or, for the two I/O instructions only, wait. -/
theorem exec_cases {i : Instr} {s t : State} (h : exec i s = .next t) :
    CompletionOf s i t ∨ (∃ f, t = s.takeFault f) ∨
      (t = s ∧ ((∃ d, i = .input d) ∨ ∃ a, i = .output a)) := by
  rw [exec_eq_result] at h
  cases h
  have hr := result_cases i s
  cases hres : result i s with
  | completed u => exact .inl (result_completed hres)
  | faulted f => exact .inr (.inl ⟨f, rfl⟩)
  | suspended r =>
    rw [hres] at hr
    cases hr with
    | starved hi _ => exact .inr (.inr ⟨rfl, .inl hi⟩)
    | blocked hi _ => exact .inr (.inr ⟨rfl, .inr hi⟩)

/-! ### Frames (R34) -/

theorem CompletionOf.stored_of_writeOperand {s t : State} {i : Instr} {d : Operand}
    (h : CompletionOf s i t) (hi : i.writeOperand? = some (3, d)) :
    ∃ a3 v, writeArg s 3 d = .ok a3 ∧ t = (s.writeMem a3 v).advance 4 := by
  cases h with
  | stored v hd ha => rw [hi] at hd; cases hd; exact ⟨_, v, ha, rfl⟩
  | consumed | emitted | jumpedIfTrue | jumpedIfFalse | adjusted | halted => cases hi

theorem CompletionOf.consumed_of_input {s t : State} {d : Operand} (h : CompletionOf s (.input d) t) :
    ∃ a1 v rest, writeArg s 1 d = .ok a1 ∧ s.inq = v :: rest ∧
      t = ((s.writeMem a1 v).setInq rest).advance 2 := by
  cases h with
  | stored v hd => cases hd
  | consumed ha hq => exact ⟨_, _, _, ha, hq, rfl⟩

/-- The memory clauses of a frame, where the write argument has the address that is written: no other cell
changes, and the clause for an argument with no address does not apply. -/
theorem writeArg_frame {s t : State} {k a : Nat} {o : Operand} {v : Int}
    (ha : writeArg s k o = .ok a) (hmem : t.mem = s.mem.write a v) :
    (∀ b, writeArg s k o = .ok b → ∀ x, x ≠ b → t.mem.read x = s.mem.read x) ∧
      ∀ f, writeArg s k o = .error f → ∀ x, t.mem.read x = s.mem.read x := by
  rw [ha, hmem]
  refine ⟨fun b hb x hx => ?_, fun f hf => nomatch hf⟩
  cases hb
  exact Memory.read_write_other s.mem v hx

/-- Settles O22: the four instructions write argument 3, so they complete by one store at its address or
take a fault. -/
theorem threeArgumentFrame : Obligations.ThreeArgumentFrame := by
  intro a b dst s t i hi h
  have hd : i.writeOperand? = some (3, dst) := by rcases hi with rfl | rfl | rfl | rfl <;> rfl
  rcases exec_cases h with hc | ⟨f, rfl⟩ | ⟨-, ⟨d, rfl⟩ | ⟨a, rfl⟩⟩
  · obtain ⟨a3, v, ha, rfl⟩ := hc.stored_of_writeOperand hd
    exact ⟨rfl, rfl, rfl, rfl, .inl ⟨rfl, rfl⟩, writeArg_frame ha rfl⟩
  · exact ⟨rfl, rfl, rfl, rfl, .inr ⟨rfl, rfl, f, rfl⟩, fun _ _ _ _ => rfl, fun _ _ _ => rfl⟩
  · cases hd
  · cases hd

/-- Settles O23: an input completes by one store and the loss of the head of `inq`, takes a fault, or
waits. -/
theorem inputFrame : Obligations.InputFrame := by
  intro dst s t h
  rcases exec_cases h with hc | ⟨f, rfl⟩ | ⟨rfl, -⟩
  · obtain ⟨a1, v, rest, ha, hq, rfl⟩ := hc.consumed_of_input
    exact ⟨rfl, rfl, rfl, .inl ⟨rfl, rfl, by simp [hq]⟩, writeArg_frame ha rfl⟩
  · exact ⟨rfl, rfl, rfl, .inr (.inr ⟨rfl, rfl, rfl, f, rfl⟩), fun _ _ _ _ => rfl, fun _ _ _ => rfl⟩
  · exact ⟨rfl, rfl, rfl, .inr (.inl rfl), fun _ _ _ _ => rfl, fun _ _ _ => rfl⟩

/-- An instruction with no write argument completes with memory, `inq` and the configuration as they
were. -/
theorem CompletionOf.frame_of_no_writeOperand {s t : State} {i : Instr} (h : CompletionOf s i t)
    (hi : i.writeOperand? = none) : t.mem = s.mem ∧ t.inq = s.inq ∧ t.config = s.config := by
  cases h with
  | stored v hd => rw [hi] at hd; cases hd
  | consumed => cases hi
  | emitted | jumpedIfTrue | jumpedIfFalse | adjusted | halted => exact ⟨rfl, rfl, rfl⟩

theorem CompletionOf.rb_eq {s t : State} {i : Instr} (h : CompletionOf s i t)
    (hi : ∀ a, i ≠ .adjustRb a) : t.rb = s.rb := by
  cases h with
  | adjusted => exact absurd rfl (hi _)
  | stored | consumed | emitted | jumpedIfTrue | jumpedIfFalse | halted => rfl

theorem CompletionOf.outq_eq {s t : State} {i : Instr} (h : CompletionOf s i t)
    (hi : ∀ a, i ≠ .output a) : t.outq = s.outq := by
  cases h with
  | emitted => exact absurd rfl (hi _)
  | stored | consumed | jumpedIfTrue | jumpedIfFalse | adjusted | halted => rfl

theorem CompletionOf.status_eq {s t : State} {i : Instr} (h : CompletionOf s i t) (hi : i ≠ .halt) :
    t.status = s.status := by
  cases h with
  | halted => exact absurd rfl hi
  | stored | consumed | emitted | jumpedIfTrue | jumpedIfFalse | adjusted => rfl

theorem CompletionOf.eq_stop_of_halt {s t : State} (h : CompletionOf s .halt t) : t = s.stop := by
  cases h with
  | stored v hd => cases hd
  | halted => rfl

/-- Settles O24: none of the five instructions has a write argument; each remaining field is written by
one instruction only. -/
theorem nonStoringFrame : Obligations.NonStoringFrame := by
  intro a b s t i hi h
  have hw : i.writeOperand? = none := by rcases hi with rfl | rfl | rfl | rfl | rfl <;> rfl
  rcases exec_cases h with hc | ⟨f, rfl⟩ | ⟨rfl, -⟩
  · obtain ⟨hmem, hinq, hconfig⟩ := hc.frame_of_no_writeOperand hw
    refine ⟨fun x => by rw [hmem], hmem, hinq, hconfig, fun hne => hc.rb_eq ?_,
      fun hne => hc.outq_eq ?_, fun hne => .inl (hc.status_eq hne), ?_⟩
    · rintro a' rfl
      exact hne (by simpa using hi)
    · rintro a' rfl
      exact hne (by simpa using hi)
    · rintro rfl
      rw [hc.eq_stop_of_halt, State.stop_pc]
  · exact ⟨fun _ => rfl, rfl, rfl, rfl, fun _ => rfl, fun _ => rfl,
      fun _ => .inr ⟨⟨f, rfl⟩, rfl, rfl, rfl⟩, fun _ => rfl⟩
  · exact ⟨fun _ => rfl, rfl, rfl, rfl, fun _ => rfl, fun _ => rfl, fun _ => .inl rfl, fun _ => rfl⟩

/-! ### The advance of `pc` (R23) -/

/-- An instruction other than a jump or a halt that completes advances `pc` by its own length. -/
theorem CompletionOf.pc_eq_add_length {s t : State} {i : Instr} (h : CompletionOf s i t)
    (hi : i.opcode ∉ [.jumpIfTrue, .jumpIfFalse, .halt]) : t.pc = s.pc + i.opcode.length := by
  cases h with
  | stored v hd =>
    have hlength : i.opcode.length = 4 := by cases i <;> cases hd <;> rfl
    rw [hlength, State.advance_pc, State.writeMem_pc]
  | consumed | emitted | adjusted => rfl
  | jumpedIfTrue | jumpedIfFalse | halted => exact absurd hi (by simp [Instr.opcode])

/-- Where a completed jump leaves `pc`, in terms of the values its arguments resolve to. -/
theorem jumpResult_pc {taken : Int → Bool} {c target : Operand} {s t : State} {v1 v2 : Int}
    (h : jumpResult taken c target s = .completed t) (h1 : readArg s 1 c = .ok v1)
    (h2 : readArg s 2 target = .ok v2) : (t.pc : Int) = if taken v1 then v2 else s.pc + 3 := by
  obtain ⟨w1, w2, n, k1, k2, hn, rfl⟩ := jumpResult_completed h
  rw [h1] at k1
  rw [h2] at k2
  cases k1
  cases k2
  exact hn

/-- Settles O40: a completed instruction advances `pc` by its length unless it is a jump or a halt; a fault
and a suspension commit nothing. -/
theorem pcAdvancesByTheTable : Obligations.PcAdvancesByTheTable := by
  intro i s
  refine ⟨fun t h => ?_, fun f h => by rw [h]; rfl, fun r h => by rw [h]; rfl⟩
  have hc := result_completed h
  refine ⟨fun hop => ?_, fun hop => ?_, ?_, ?_, ?_⟩
  · obtain ⟨hseq, hlength⟩ := Opcode.length_eq_four hop
    rw [hc.pc_eq_add_length hseq, hlength]
  · obtain ⟨hseq, hlength⟩ := Opcode.length_eq_two hop
    rw [hc.pc_eq_add_length hseq, hlength]
  · rintro c target v1 v2 rfl h1 h2
    simpa [condNonZero] using jumpResult_pc h h1 h2
  · rintro c target v1 v2 rfl h1 h2
    simpa [condZero] using jumpResult_pc h h1 h2
  · rintro rfl
    rw [hc.eq_stop_of_halt, State.stop_pc]

/-! ### The changes of `status` (R28) -/

theorem attempt_of_fetch {s : State} {i : Instr} (h : s.fetch = .ok i) : attempt s = result i s := by
  simp [attempt, h]

/-- A step that completes executes the instruction it fetched. -/
theorem attempt_completed {s t : State} (h : attempt s = .completed t) :
    ∃ i, s.fetch = .ok i ∧ CompletionOf s i t := by
  rcases attempt_cases s with ⟨i, hfetch, hr, -⟩ | ⟨e, -, hr⟩ <;> rw [hr] at h
  · exact ⟨i, hfetch, result_completed h⟩
  · cases h

/-- A step that does not complete fetched no halt, for a halt always completes. -/
theorem fetch_ne_halt {s : State} (h : ∀ t, attempt s ≠ .completed t) : s.fetch ≠ .ok .halt :=
  fun hfetch => h s.stop (attempt_of_fetch hfetch)

theorem step_halted_iff {s t : State} (hs : s.status = .running) (h : step s = .next t) :
    t.status = .halted ↔ s.fetch = .ok .halt := by
  rw [step_running hs] at h
  cases h
  cases ha : attempt s with
  | completed u =>
    obtain ⟨i, hfetch, hc⟩ := attempt_completed ha
    rw [hfetch]
    by_cases hi : i = .halt
    · subst hi
      simp [hc.eq_stop_of_halt]
    · simp [hc.status_eq hi, hs, hi]
  | faulted f => simp [fetch_ne_halt (s := s) (by simp [ha])]
  | suspended r => simp [fetch_ne_halt (s := s) (by simp [ha]), hs]

theorem step_faulted_iff {s t : State} (hs : s.status = .running) (h : step s = .next t)
    (f : FaultRecord) : t.status = .faulted f ↔ attempt s = .faulted f := by
  rw [step_running hs] at h
  cases h
  cases ha : attempt s with
  | completed u => rcases (attempt_completed_effect ha).status_eq with hu | hu <;> simp [hu, hs]
  | faulted g => simp
  | suspended r => simp [hs]

theorem State.afterHostOp_status (s : State) (op : HostOp) : (s.afterHostOp op).status = s.status := by
  rcases s.afterHostOp_cases op with h | ⟨a, v, h⟩ | ⟨v, h⟩ | ⟨v, rest, -, h⟩ <;> rw [h] <;> rfl

/-- Settles O42: by the three ways an attempt can end, and because neither a stopped machine's step nor a
host operation writes `status`. -/
theorem statusTransitions : Obligations.StatusTransitions := by
  refine ⟨fun s t hs h => ⟨step_halted_iff hs h, step_faulted_iff hs h, fun r hr => ?_⟩,
    fun s hs => step_stopped hs, State.afterHostOp_status⟩
  rw [step_suspended hr] at h
  cases h
  exact hs

end Machine

end Sys2Proof
end

section
/-! Memory read after any number of writes and compared by its reads (R42, R45), the host's access to single
cells (R57 to R59), and the invariant of a new machine and of a step. -/

namespace Sys2Proof.Machine

/-! ### The invariant of a step and of a new machine -/

/-- Settles O51: a step leaves the state as it was, applies the effect of one completed instruction or
takes the fault of its attempt, and each of the three keeps the invariant. -/
theorem stepKeepsTheInvariant : Obligations.StepKeepsTheInvariant :=
  fun _ _ hi h => step_keeps_inv hi h

theorem State.reset_eq_new : State.reset = State.new Config.default [] [] := rfl

/-- Settles O50: reset is a new machine, loading an image into the empty memory keeps the canonical form,
and a new machine is Running with an empty `outq`. -/
theorem newMachinesMeetTheInvariant : Obligations.NewMachinesMeetTheInvariant :=
  ⟨State.reset_eq_new, State.reset_eq_new ▸ State.new_inv Config.default [] [], State.new_inv⟩

/-! ### A written cell keeps its value until it is written again -/

theorem Memory.read_foldl_write_other {a : Nat} (later : List (Nat × Int)) (m : Memory)
    (h : ∀ e ∈ later, e.1 ≠ a) :
    (later.foldl (fun n e => n.write e.1 e.2) m).read a = m.read a := by
  induction later generalizing m with
  | nil => rfl
  | cons e later ih =>
    obtain ⟨he, hlater⟩ := List.forall_mem_cons.1 h
    rw [List.foldl_cons, ih _ hlater, Memory.read_write_other m e.2 he.symm]

/-- Settles O44: by the two read-after-write laws, and by induction on the later writes. -/
theorem readAfterWrite : Obligations.ReadAfterWrite := by
  refine ⟨Memory.read_write_same, fun m _ _ v h => m.read_write_other v h, ?_, Memory.read_nil⟩
  intro m a v later h
  rw [Memory.read_foldl_write_other later _ h, Memory.read_write_same]

/-! ### The canonical form is unique -/

theorem Memory.wf_cons {b : Nat} {x : Int} {m : Memory} :
    Memory.wf ((b, x) :: m) = true ↔
      x ≠ 0 ∧ Memory.risesAbove (some b) m = true ∧ m.wf = true := by
  have hbound : Memory.boundedBelow none b := nofun
  rw [Memory.wf_iff, Memory.wf_iff, Memory.risesAbove_cons, List.forall_mem_cons]
  constructor
  · rintro ⟨⟨-, hrise⟩, hx, hm⟩
    exact ⟨hx, hrise, Memory.risesAbove_weaken hbound hrise, hm⟩
  · rintro ⟨hx, hrise, -, hm⟩
    exact ⟨⟨hbound, hrise⟩, hx, hm⟩

/-- A cell at or below the bound of a rising list is not listed. -/
theorem Memory.read_eq_zero_of_risesAbove {a b : Nat} {m : Memory}
    (h : Memory.risesAbove (some b) m = true) (hab : a ≤ b) : m.read a = 0 := by
  induction m generalizing b with
  | nil => rfl
  | cons e m ih =>
    obtain ⟨c, x⟩ := e
    obtain ⟨hbound, hrise⟩ := (Memory.risesAbove_cons ..).1 h
    have hbc : b < c := hbound b rfl
    rw [Memory.read_cons, if_neg (by omega), ih hrise (by omega)]

/-- The first listed cell of a canonical memory is the lowest one that does not read 0. -/
theorem Memory.head_le_of_read_ne_zero {a b : Nat} {x : Int} {m : Memory}
    (h : Memory.wf ((b, x) :: m) = true) (ha : Memory.read ((b, x) :: m) a ≠ 0) : b ≤ a := by
  obtain ⟨-, hrise, -⟩ := Memory.wf_cons.1 h
  by_contra hlt
  rw [Memory.read_cons, if_neg (by omega)] at ha
  exact ha (Memory.read_eq_zero_of_risesAbove hrise (by omega))

theorem Memory.read_head_ne_zero {b : Nat} {x : Int} {m : Memory}
    (h : Memory.wf ((b, x) :: m) = true) : Memory.read ((b, x) :: m) b ≠ 0 := by
  rw [Memory.read_cons, if_pos rfl]
  exact (Memory.wf_cons.1 h).1

/-- Above its bound a rising list is read through the cell in front of it; elsewhere it reads 0. -/
theorem Memory.read_tail {a b : Nat} {x : Int} {m : Memory}
    (h : Memory.risesAbove (some b) m = true) :
    m.read a = if a ≤ b then 0 else Memory.read ((b, x) :: m) a := by
  split
  · next hab => exact Memory.read_eq_zero_of_risesAbove h hab
  · next hab => rw [Memory.read_cons, if_neg (by omega)]

/-- The first cells of two canonical memories that read alike stand at the same address, each being the
lowest cell that does not read 0; so they hold the same value, and the rest reads alike. -/
theorem Memory.eq_of_read_eq {m n : Memory} (hm : m.wf = true) (hn : n.wf = true)
    (h : ∀ a, m.read a = n.read a) : m = n := by
  induction m generalizing n with
  | nil =>
    cases n with
    | nil => rfl
    | cons e n => exact absurd (h e.1).symm (Memory.read_head_ne_zero hn)
  | cons d m ih =>
    obtain ⟨b, x⟩ := d
    cases n with
    | nil => exact absurd (h b) (Memory.read_head_ne_zero hm)
    | cons e n =>
      obtain ⟨c, y⟩ := e
      have hbc : b ≤ c := Memory.head_le_of_read_ne_zero hm (h c ▸ Memory.read_head_ne_zero hn)
      have hcb : c ≤ b := Memory.head_le_of_read_ne_zero hn (h b ▸ Memory.read_head_ne_zero hm)
      obtain rfl : b = c := Nat.le_antisymm hbc hcb
      obtain ⟨-, hmrise, hmwf⟩ := Memory.wf_cons.1 hm
      obtain ⟨-, hnrise, hnwf⟩ := Memory.wf_cons.1 hn
      have hxy : x = y := by simpa [Memory.read_cons] using h b
      have htail : m = n := ih hmwf hnwf fun a => by
        rw [Memory.read_tail (x := x) hmrise, Memory.read_tail (x := y) hnrise, h a]
      rw [hxy, htail]

/-- Settles O45: by induction on the two lists, whose first cells agree. -/
theorem canonicalMemoriesThatReadAlikeAreEqual :
    Obligations.CanonicalMemoriesThatReadAlikeAreEqual :=
  fun _ _ hm hn h => Memory.eq_of_read_eq hm hn h

/-! ### The host's access to one cell -/

theorem State.peek_nonneg (s : State) {a : Int} (h : 0 ≤ a) :
    s.peek a = .ok (s.mem.read a.toNat) := if_neg (not_lt.2 h)

theorem State.peek_neg (s : State) {a : Int} (h : a < 0) :
    s.peek a = .error (.negativeHostAddress a) := if_pos h

theorem State.poke_nonneg (s : State) {a : Int} (v : Int) (h : 0 ≤ a) :
    s.poke a v = .ok (s.writeMem a.toNat v) := if_neg (not_lt.2 h)

theorem State.poke_neg (s : State) {a : Int} (v : Int) (h : a < 0) :
    s.poke a v = .error (.negativeHostAddress a) := if_pos h

theorem State.afterHostOp_poke_neg (s : State) {a : Int} (v : Int) (h : a < 0) :
    s.afterHostOp (.poke a v) = s := by
  simp only [State.afterHostOp, s.poke_neg v h]

/-- Settles O48: by the sign of the address, which is all that `peek` and `poke` test. -/
theorem peekAndPoke : Obligations.PeekAndPoke := by
  intro s a v
  constructor
  · intro h
    exact ⟨s.peek_nonneg h, s.poke_nonneg v h⟩
  · intro h
    exact ⟨s.peek_neg h, s.poke_neg v h, s.afterHostOp_poke_neg v h⟩

end Sys2Proof.Machine
end

section
/-! Decoding and encoding (R60 to R70, R79 to R81): the parts of an assembled instruction, the modes as
decimal digits, the round trip both ways, and the four kinds of illegal word. -/

namespace Sys2Proof

/-! ### The parts of an assembled instruction -/

@[simp] theorem assemble_opcode (op : Opcode) (ms : List Mode) (lit : Nat → Int) :
    (assemble op ms lit).opcode = op := by
  cases op <;> rfl

@[simp] theorem assemble_operands (op : Opcode) (ms : List Mode) (lit : Nat → Int) :
    (assemble op ms lit).operands = (List.range op.arity).map (fun j => argument ms lit (j + 1)) := by
  cases op <;> rfl

theorem assemble_modes {op : Opcode} {ms : List Mode} (lit : Nat → Int) (h : ms.length = op.arity) :
    (assemble op ms lit).operands.map Operand.mode = ms := by
  refine List.ext_getElem (by simp [h]) fun j _ hj => ?_
  simp [argument, hj]

/-- An instruction is what its opcode makes of its own arguments. -/
theorem assemble_of_arguments {i : Instr} {ms : List Mode} {lit : Nat → Int}
    (h : ∀ j o, i.operands[j]? = some o → argument ms lit (j + 1) = o) :
    assemble i.opcode ms lit = i := by
  cases i with
  | add a b d | mul a b d | lessThan a b d | equals a b d =>
    simp [assemble, Instr.opcode, h 0 a rfl, h 1 b rfl, h 2 d rfl]
  | jumpIfTrue c t | jumpIfFalse c t => simp [assemble, Instr.opcode, h 0 c rfl, h 1 t rfl]
  | input o | output o | adjustRb o => simp [assemble, Instr.opcode, h 0 o rfl]
  | halt => rfl

/-- Only the literals of the opcode's own arguments are looked at (R70). -/
theorem assemble_congr {op : Opcode} {ms : List Mode} {lit lit' : Nat → Int}
    (h : ∀ k, 1 ≤ k → k ≤ op.arity → lit k = lit' k) : assemble op ms lit = assemble op ms lit' := by
  have hops : ∀ j o, (assemble op ms lit').operands[j]? = some o → argument ms lit (j + 1) = o := by
    intro j o ho
    rw [assemble_operands] at ho
    obtain ⟨hj, rfl⟩ := List.getElem?_eq_some_iff.1 ho
    have hj : j < op.arity := by simpa using hj
    simp [argument, h (j + 1) (by omega) hj]
  simpa using assemble_of_arguments hops

theorem Opcode.writePosition_le_arity {op : Opcode} {k : Nat} (h : op.writePosition? = some k) :
    k ≤ op.arity := by
  cases op <;> cases h <;> decide

/-- R69 read from the modes: the mode at the write position is not immediate. -/
theorem Instr.wf_iff_modes (i : Instr) :
    i.wf = true ↔ ∀ k, i.opcode.writePosition? = some k →
      (i.operands.map Operand.mode)[k - 1]? ≠ some .immediate := by
  cases i <;> simp [Instr.wf, Instr.writeOperand?, Operand.mayBeWritten, Instr.opcode,
    Opcode.writePosition?, Instr.operands]

/-! ### The decoder's answer in one piece -/

theorem decode_of_decodeWord {w : Int} {op : Opcode} {ms : List Mode} (lit : Nat → Int)
    (h : decodeWord w = .ok (op, ms)) : decode w lit = .ok (assemble op ms lit) := by
  simp only [decode, h]

theorem decode_eq_ok_iff {w : Int} {lit : Nat → Int} {i : Instr} :
    decode w lit = .ok i ↔ ∃ op ms, decodeWord w = .ok (op, ms) ∧ assemble op ms lit = i := by
  unfold decode
  cases h : decodeWord w with
  | error e => simp
  | ok p =>
    obtain ⟨op, ms⟩ := p
    simp

theorem decode_congr_literals {w : Int} {lit lit' : Nat → Int} {i : Instr} (h : decode w lit = .ok i)
    (hlit : ∀ k, 1 ≤ k → k ≤ i.opcode.arity → lit' k = lit k) : decode w lit' = .ok i := by
  obtain ⟨op, ms, hw, rfl⟩ := decode_eq_ok_iff.1 h
  rw [decode_of_decodeWord lit' hw, assemble_congr (by simpa using hlit)]

/-! ### Decoding inverts encoding -/

/-- The canonical word decodes to the instruction's opcode and modes (R61, R63, R69, R79). -/
theorem decodeWord_word {i : Instr} (hwf : i.wf = true) :
    decodeWord (i.word : Int) = .ok (i.opcode, i.operands.map Operand.mode) := by
  refine decodeWord_ok_iff.2 ⟨Int.natCast_nonneg _, ?_, ?_, i.wf_iff_modes.1 hwf⟩
  · simp [i.word_mod]
  · refine decodeModes_ok_iff.2 ⟨by simp, fun j hj => ?_⟩
    have hj : j < i.operands.length := by simpa using hj
    have hdigit : digit i.word (j + 2) = i.operands[j].mode.toDigit := by
      rw [i.digit_word, digit_modeDigits _ _ hj]
    rw [Int.toNat_natCast, show 1 + j + 1 = j + 2 by omega, hdigit]
    simp

/-- A well-formed instruction is decoded from its canonical word and the literals of its arguments,
wherever these stand (R60, R70). -/
theorem decode_word {i : Instr} {lit : Nat → Int} (hwf : i.wf = true)
    (hlit : ∀ j o, i.operands[j]? = some o → lit (j + 1) = o.literal) :
    decode (i.word : Int) lit = .ok i := by
  rw [decode_of_decodeWord lit (decodeWord_word hwf), assemble_of_arguments]
  intro j o ho
  simp [argument, ho, hlit j o ho]

theorem encode_getElem?_zero (i : Instr) : (encode i)[0]? = some (i.word : Int) := rfl

theorem encode_getElem?_succ {i : Instr} {j : Nat} {o : Operand} (h : i.operands[j]? = some o) :
    (encode i)[j + 1]? = some o.literal := by
  simp [encode, h]

/-- Settles O3: the canonical word holds the opcode and the modes in its digits, and cell `j + 1` holds the
literal of operand `j`. -/
theorem decodeInvertsEncode : Obligations.DecodeInvertsEncode := by
  intro i hwf
  refine decode_word hwf fun j o ho => ?_
  rw [List.getD_eq_getElem?_getD, encode_getElem?_succ ho, Option.getD_some]

/-! ### Encoding inverts decoding -/

theorem digit_div_hundred (w j : Nat) : digit (w / 100) j = digit w (j + 2) := by
  rw [digit, digit, Nat.div_div_eq_div_mul, pow_add, Nat.mul_comm]
  norm_num

/-- A number whose low digits are the modes of a list of arguments is that list's mode digits, up to the
digits above them. -/
theorem modeDigits_eq_mod {os : List Operand} {w : Nat}
    (h : ∀ j (hj : j < os.length), digit w j = os[j].mode.toDigit) :
    modeDigits os = w % 10 ^ os.length := by
  induction os generalizing w with
  | nil => simp [modeDigits, Nat.mod_one]
  | cons o os ih =>
    have hhead : w % 10 = o.mode.toDigit := by
      simpa [digit] using h 0 (Nat.succ_pos _)
    have htail : modeDigits os = w / 10 % 10 ^ os.length := ih fun j hj => by
      have hdigit := h (j + 1) (by simpa using hj)
      simpa [digit, pow_succ', Nat.div_div_eq_div_mul] using hdigit
    rw [modeDigits, List.length_cons, pow_succ', Nat.mod_mul, hhead, htail]

/-- What a decoded word says of its instruction: the canonical word is the word without the digits the
opcode does not decode (R61, R80). -/
theorem word_of_decodeWord {w : Int} {op : Opcode} {ms : List Mode} (lit : Nat → Int)
    (h : decodeWord w = .ok (op, ms)) :
    (assemble op ms lit).word = w.toNat % 10 ^ (2 + op.arity) := by
  obtain ⟨-, hop, hms, -⟩ := decodeWord_ok_iff.1 h
  obtain ⟨hlen, hdigits⟩ := decodeModes_ok_iff.1 hms
  have hmodes : modeDigits (assemble op ms lit).operands = w.toNat / 100 % 10 ^ op.arity := by
    have hmod := modeDigits_eq_mod (os := (assemble op ms lit).operands) (w := w.toNat / 100) ?_
    · simpa using hmod
    · intro j hj
      have hj : j < ms.length := by simpa [hlen] using hj
      rw [digit_div_hundred, show j + 2 = 1 + j + 1 by omega, Mode.ofDigit?_eq_some.1 (hdigits j hj)]
      simp [argument, hj]
  rw [Instr.word, assemble_opcode, hmodes, ← Opcode.ofNumber?_eq_some.1 hop, pow_add, Nat.mod_mul]
  norm_num

theorem wf_of_decodeWord {w : Int} {op : Opcode} {ms : List Mode} (lit : Nat → Int)
    (h : decodeWord w = .ok (op, ms)) : (assemble op ms lit).wf = true := by
  obtain ⟨-, -, hms, hwrite⟩ := decodeWord_ok_iff.1 h
  obtain ⟨hlen, -⟩ := decodeModes_ok_iff.1 hms
  rw [Instr.wf_iff_modes, assemble_modes lit hlen, assemble_opcode]
  exact hwrite

/-- Settles O4: the decoder's answer is assembled from the opcode and the modes that the word's digits
name. -/
theorem decodedInstrIsTheWordsDigits : Obligations.DecodedInstrIsTheWordsDigits := by
  intro w lit i h
  obtain ⟨op, ms, hw, rfl⟩ := decode_eq_ok_iff.1 h
  obtain ⟨h0, -⟩ := decodeWord_ok_iff.1 hw
  refine ⟨h0, wf_of_decodeWord lit hw, ?_, fun j o ho => ?_⟩
  · rw [word_of_decodeWord lit hw, assemble_opcode]
  · rw [assemble_operands] at ho
    obtain ⟨hj, rfl⟩ := List.getElem?_eq_some_iff.1 ho
    simp [argument]

/-! ### Digits an opcode does not decode -/

theorem digit_add_pow_mul {w m n j : Nat} (h : j < n) : digit (w + 10 ^ n * m) j = digit w j := by
  obtain ⟨d, rfl⟩ : ∃ d, n = j + (d + 1) := ⟨n - j - 1, by omega⟩
  have hfactor : (10 : Nat) ^ (j + (d + 1)) * m = 10 ^ j * (10 * (10 ^ d * m)) := by ring
  rw [digit, digit, hfactor, Nat.add_mul_div_left _ _ (by positivity), Nat.add_mul_mod_self_left]

theorem decodeModes_congr {w w' k n : Nat}
    (h : ∀ j, k ≤ j → j < k + n → digit w (j + 1) = digit w' (j + 1)) :
    decodeModes w k n = decodeModes w' k n := by
  induction n generalizing k with
  | zero => rfl
  | succ n ih =>
    have htail : decodeModes w (k + 1) n = decodeModes w' (k + 1) n :=
      ih fun j hj hjn => h j (by omega) (by omega)
    simp only [decodeModes, h k (by omega) (by omega), htail]

theorem decodeWord_congr {w w' : Nat} {op : Opcode} (hop : Opcode.ofNumber? (w % 100) = some op)
    (hop' : Opcode.ofNumber? (w' % 100) = some op)
    (hms : decodeModes w 1 op.arity = decodeModes w' 1 op.arity) :
    decodeWord (w : Int) = decodeWord (w' : Int) := by
  simp only [decodeWord, not_lt.2 (Int.natCast_nonneg _), if_false, Int.toNat_natCast, hop, hop', hms]

theorem decodeWord_add_pow_mul {w : Nat} {op : Opcode} (m : Nat)
    (hop : Opcode.ofNumber? (w % 100) = some op) :
    decodeWord ((w + 10 ^ (2 + op.arity) * m : Nat) : Int) = decodeWord (w : Int) := by
  refine decodeWord_congr ?_ hop (decodeModes_congr fun j _ hj => digit_add_pow_mul (by omega))
  have hfactor : (10 : Nat) ^ (2 + op.arity) * m = 100 * (10 ^ op.arity * m) := by ring
  rw [hfactor, Nat.add_mul_mod_self_left, hop]

/-- Settles O2: the two digits of the opcode and the mode digits of its arguments all stand below
`10^(2 + arity)`. -/
theorem undecodedDigitsAreIgnored : Obligations.UndecodedDigitsAreIgnored := by
  refine ⟨fun w m op lit hop => ?_, ?_, ?_, ?_⟩
  · simp only [decode, decodeWord_add_pow_mul m hop]
  · simp only [List.forall_mem_cons]
    exact ⟨rfl, rfl, rfl, rfl, nofun⟩
  · simp only [List.forall_mem_cons]
    exact ⟨rfl, rfl, rfl, nofun⟩
  · simp only [List.forall_mem_cons]
    exact ⟨rfl, rfl, nofun⟩

/-! ### Illegal words (R81) -/

/-- The numbers of the table of R64. -/
theorem Opcode.ofNumber?_eq_none_iff {n : Nat} :
    Opcode.ofNumber? n = none ↔ n ∉ [1, 2, 3, 4, 5, 6, 7, 8, 9, 99] := by
  constructor
  · intro h hmem
    revert h
    fin_cases hmem <;> decide
  · intro hmem
    cases h : Opcode.ofNumber? n with
    | none => rfl
    | some op =>
      rw [Opcode.ofNumber?_eq_some.1 h] at hmem
      exact absurd (by cases op <;> decide) hmem

theorem Opcode.exists_ofNumber?_eq_some {n : Nat} (h : n ∈ [1, 2, 3, 4, 5, 6, 7, 8, 9, 99]) :
    ∃ op, Opcode.ofNumber? n = some op :=
  Option.ne_none_iff_exists'.1 fun hnone => Opcode.ofNumber?_eq_none_iff.1 hnone h

/-- A mode of the decoder's answer is the one its digit names (R61, R66). -/
theorem decodeModes_getElem? {w n k : Nat} {ms : List Mode} (h : decodeModes w 1 n = .ok ms)
    (hk : 1 ≤ k) (hkn : k ≤ n) : ms[k - 1]? = Mode.ofDigit? (digit w (k + 1)) := by
  obtain ⟨hlen, hdigits⟩ := decodeModes_ok_iff.1 h
  have hlt : k - 1 < ms.length := by omega
  rw [List.getElem?_eq_getElem hlt, ← hdigits (k - 1) hlt, Nat.add_sub_cancel' hk]

/-- The modes decode exactly where every mode digit is 0, 1 or 2 (R67). -/
theorem exists_decodeModes_ok_iff {w n : Nat} :
    (∃ ms, decodeModes w 1 n = .ok ms) ↔ ∀ j, 1 ≤ j → j ≤ n → digit w (j + 1) < 3 := by
  constructor
  · rintro ⟨ms, h⟩ j hj hjn
    by_contra hge
    have hnone := Mode.ofDigit?_eq_none.2 (not_lt.1 hge)
    obtain ⟨hlen, -⟩ := decodeModes_ok_iff.1 h
    rw [← decodeModes_getElem? h hj hjn, List.getElem?_eq_none_iff] at hnone
    omega
  · intro h
    cases hms : decodeModes w 1 n with
    | ok ms => exact ⟨ms, rfl⟩
    | error k =>
      obtain ⟨hk, hkn, hge, -⟩ := decodeModes_error_iff.1 hms
      exact absurd (h k hk (by omega)) (not_lt.2 hge)

theorem decode_of_neg {w : Int} (lit : Nat → Int) (h : w < 0) :
    decode w lit = .error .negativeWord := by
  simp [decode, decodeWord, h]

theorem decode_of_unknown {w : Int} (lit : Nat → Int) (h0 : 0 ≤ w)
    (hop : w.toNat % 100 ∉ [1, 2, 3, 4, 5, 6, 7, 8, 9, 99]) :
    decode w lit = .error .unknownOpcode := by
  simp only [decode, decodeWord, not_lt.2 h0, if_false, Opcode.ofNumber?_eq_none_iff.2 hop]

theorem decode_of_badMode {w : Int} {op : Opcode} {k : Nat} (lit : Nat → Int) (h0 : 0 ≤ w)
    (hop : Opcode.ofNumber? (w.toNat % 100) = some op)
    (hms : decodeModes w.toNat 1 op.arity = .error k) : decode w lit = .error (.badMode k) := by
  simp only [decode, decodeWord, not_lt.2 h0, if_false, hop, hms]

theorem decode_of_immediateTarget {w : Int} {op : Opcode} {ms : List Mode} {k : Nat}
    (lit : Nat → Int) (h0 : 0 ≤ w) (hop : Opcode.ofNumber? (w.toNat % 100) = some op)
    (hms : decodeModes w.toNat 1 op.arity = .ok ms) (hwrite : op.writePosition? = some k)
    (himm : ms[k - 1]? = some .immediate) : decode w lit = .error (.invalidWriteTarget k) := by
  simp only [decode, decodeWord, not_lt.2 h0, if_false, hop, hms, checkWriteMode, hwrite, himm, if_true]

/-- The first bad mode digit, in the numbering of R67. -/
theorem decodeModes_one_error_iff {w n k : Nat} :
    decodeModes w 1 n = .error k ↔
      1 ≤ k ∧ k ≤ n ∧ 3 ≤ digit w (k + 1) ∧ ∀ j, 1 ≤ j → j < k → digit w (j + 1) < 3 := by
  rw [decodeModes_error_iff, Nat.add_comm 1 n, Nat.lt_succ_iff]

/-- An immediate mode at argument `k` is the mode digit 1 (R66). -/
theorem decodeModes_immediate_iff {w n k : Nat} {ms : List Mode} (h : decodeModes w 1 n = .ok ms)
    (hk : 1 ≤ k) (hkn : k ≤ n) : ms[k - 1]? = some .immediate ↔ digit w (k + 1) = 1 := by
  rw [decodeModes_getElem? h hk hkn, Mode.ofDigit?_eq_some, Mode.toDigit]

theorem decode_negativeWord_iff {w : Int} {lit : Nat → Int} :
    decode w lit = .error .negativeWord ↔ w < 0 := by
  refine ⟨fun h => ?_, decode_of_neg lit⟩
  rcases decode_error_cases h with ⟨hneg, -⟩ | ⟨-, -, he⟩ | ⟨op, k, -, -, -, he⟩ |
    ⟨op, ms, k, -, -, -, -, -, he⟩
  · exact hneg
  all_goals cases he

theorem decode_unknownOpcode_iff {w : Int} {lit : Nat → Int} :
    decode w lit = .error .unknownOpcode ↔
      0 ≤ w ∧ w.toNat % 100 ∉ [1, 2, 3, 4, 5, 6, 7, 8, 9, 99] := by
  refine ⟨fun h => ?_, fun ⟨h0, hop⟩ => decode_of_unknown lit h0 hop⟩
  rcases decode_error_cases h with ⟨-, he⟩ | ⟨h0, hop, -⟩ | ⟨op, k, -, -, -, he⟩ |
    ⟨op, ms, k, -, -, -, -, -, he⟩
  · cases he
  · exact ⟨h0, Opcode.ofNumber?_eq_none_iff.1 hop⟩
  all_goals cases he

theorem decode_badMode_iff {w : Int} {lit : Nat → Int} {k : Nat} :
    decode w lit = .error (.badMode k) ↔
      0 ≤ w ∧ ∃ op, Opcode.ofNumber? (w.toNat % 100) = some op ∧
        decodeModes w.toNat 1 op.arity = .error k := by
  constructor
  · intro h
    rcases decode_error_cases h with ⟨-, he⟩ | ⟨-, -, he⟩ | ⟨op, k', h0, hop, hms, he⟩ |
      ⟨op, ms, k', -, -, -, -, -, he⟩ <;> cases he
    exact ⟨h0, op, hop, hms⟩
  · rintro ⟨h0, op, hop, hms⟩
    exact decode_of_badMode lit h0 hop hms

theorem decode_invalidWriteTarget_iff {w : Int} {lit : Nat → Int} {k : Nat} :
    decode w lit = .error (.invalidWriteTarget k) ↔
      0 ≤ w ∧ ∃ op, Opcode.ofNumber? (w.toNat % 100) = some op ∧ op.writePosition? = some k ∧
        (∃ ms, decodeModes w.toNat 1 op.arity = .ok ms) ∧ digit w.toNat (k + 1) = 1 := by
  constructor
  · intro h
    rcases decode_error_cases h with ⟨-, he⟩ | ⟨-, -, he⟩ | ⟨op, k', -, -, -, he⟩ |
      ⟨op, ms, k', h0, hop, hms, hwrite, himm, he⟩ <;> cases he
    have hk := Opcode.one_le_writePosition hwrite
    have hkn := Opcode.writePosition_le_arity hwrite
    exact ⟨h0, op, hop, hwrite, ⟨ms, hms⟩, (decodeModes_immediate_iff hms hk hkn).1 himm⟩
  · rintro ⟨h0, op, hop, hwrite, ⟨ms, hms⟩, hdigit⟩
    have hk := Opcode.one_le_writePosition hwrite
    have hkn := Opcode.writePosition_le_arity hwrite
    exact decode_of_immediateTarget lit h0 hop hms hwrite
      ((decodeModes_immediate_iff hms hk hkn).2 hdigit)

/-- Settles O5: each name is answered only by its own check, and each check, when it is the first to fail,
answers its name. -/
theorem illegalWordsByName : Obligations.IllegalWordsByName := by
  intro w lit
  refine ⟨decode_negativeWord_iff, decode_unknownOpcode_iff, fun k => ?_, fun k => ?_⟩
  · simp only [decode_badMode_iff, decodeModes_one_error_iff]
  · simp only [decode_invalidWriteTarget_iff, exists_decodeModes_ok_iff]

/-! ### The canonical word as a formula (R79) -/

/-- Up to three mode digits, an argument that is not there counting 0. -/
theorem modeDigits_of_length_le_three {os : List Operand} (h : os.length ≤ 3) :
    modeDigits os = (os[0]?.map (fun o => o.mode.toDigit)).getD 0
      + 10 * (os[1]?.map (fun o => o.mode.toDigit)).getD 0
      + 100 * (os[2]?.map (fun o => o.mode.toDigit)).getD 0 := by
  match os, h with
  | [], _ => rfl
  | [a], _ => simp [modeDigits]
  | [a, b], _ => simp [modeDigits]
  | [a, b, c], _ => simp [modeDigits]; ring

/-- Settles O1: an instruction has at most three arguments; the ten words are decoded by evaluation. -/
theorem canonicalWordFormula : Obligations.CanonicalWordFormula := by
  refine ⟨fun i => ?_, rfl, rfl, rfl, rfl, rfl, rfl, rfl, rfl, rfl, rfl⟩
  have hlen : i.operands.length ≤ 3 := i.operands_length ▸ i.opcode.arity_le_three
  rw [Instr.word, modeDigits_of_length_le_three hlen]
  ring

end Sys2Proof
end

section
/-! The resolver and the step over decoded words (R60, R63, R71 to R75, R84, R213): arguments by their mode,
the first negative address, and the step of a word that decodes and of one that does not. -/

namespace Sys2Proof.Machine

/-! ### Arguments by mode (R71, R72) -/

/-- Settles O7: the three equations of the effective address. -/
theorem effectiveAddressByMode : Obligations.EffectiveAddressByMode :=
  fun p rb => ⟨effectiveAddress_position p rb, effectiveAddress_relative p rb,
    effectiveAddress_immediate p rb⟩

/-- Settles O8: a read and a write argument by the effective address of their mode. -/
theorem argumentsResolveByMode : Obligations.ArgumentsResolveByMode :=
  fun s k p => ⟨readArg_immediate k (effectiveAddress_immediate p s.rb),
    readArg_nonneg k (effectiveAddress_position p s.rb),
    readArg_nonneg k (effectiveAddress_relative p s.rb),
    writeArg_nonneg k (effectiveAddress_position p s.rb),
    writeArg_nonneg k (effectiveAddress_relative p s.rb),
    writeArg_immediate k (effectiveAddress_immediate p s.rb)⟩

/-! ### The first negative effective address (R74, R221) -/

/-- The argument at place `j` of a list (argument `j + 1` of the instruction) has the negative effective
address `ea`, and no argument before it has a negative one. -/
inductive FirstNegative (rb : Int) : List Operand → Nat → Int → Prop where
  | here {o : Operand} {os : List Operand} {ea : Int} : effectiveAddress o rb = some ea → ea < 0 →
      FirstNegative rb (o :: os) 0 ea
  | there {o : Operand} {os : List Operand} {j : Nat} {ea : Int} :
      (∀ ea', effectiveAddress o rb = some ea' → 0 ≤ ea') → FirstNegative rb os j ea →
      FirstNegative rb (o :: os) (j + 1) ea

theorem FirstNegative.of_getElem? {rb : Int} {os : List Operand} {j : Nat} {o : Operand} {ea : Int}
    (ho : os[j]? = some o) (hea : effectiveAddress o rb = some ea) (h0 : ea < 0)
    (hbefore : ∀ j' o' ea', j' < j → os[j']? = some o' → effectiveAddress o' rb = some ea' → 0 ≤ ea') :
    FirstNegative rb os j ea := by
  induction os generalizing j with
  | nil => simp at ho
  | cons o' os ih =>
    cases j with
    | zero =>
      obtain rfl : o' = o := by simpa using ho
      exact .here hea h0
    | succ j =>
      refine .there (fun ea' => hbefore 0 o' ea' (Nat.succ_pos j) rfl) (ih (by simpa using ho) ?_)
      intro j' o'' ea' hj ho' hea'
      exact hbefore (j' + 1) o'' ea' (Nat.succ_lt_succ hj) (by simpa using ho') hea'

/-- A read argument whose effective address, if it has one, is not negative has a value. -/
theorem exists_readArg_ok {s : State} {o : Operand} (k : Nat)
    (h : ∀ ea, effectiveAddress o s.rb = some ea → 0 ≤ ea) : ∃ v, readArg s k o = .ok v := by
  cases hea : effectiveAddress o s.rb with
  | none => exact ⟨_, readArg_immediate k hea⟩
  | some ea => exact ⟨_, readArg_nonneg k hea (h ea hea)⟩

theorem FirstNegative.readArg_eq {s : State} {o : Operand} {j : Nat} {ea : Int}
    (h : FirstNegative s.rb [o] j ea) : readArg s 1 o = .error (s.addressFault (j + 1) ea) := by
  cases h with
  | here hea h0 => exact readArg_neg 1 hea h0
  | there _ h => cases h

theorem FirstNegative.writeArg_eq {s : State} {o : Operand} {j : Nat} {ea : Int}
    (h : FirstNegative s.rb [o] j ea) : writeArg s 1 o = .error (s.addressFault (j + 1) ea) := by
  cases h with
  | here hea h0 => exact writeArg_neg 1 hea h0
  | there _ h => cases h

theorem FirstNegative.resolveTwo_eq {s : State} {a b : Operand} {j : Nat} {ea : Int}
    (h : FirstNegative s.rb [a, b] j ea) :
    resolveTwo s a b = .error (s.addressFault (j + 1) ea) := by
  cases h with
  | here hea h0 => simp only [resolveTwo, readArg_neg 1 hea h0]
  | there hna h =>
    obtain ⟨v1, hv1⟩ := exists_readArg_ok 1 hna
    cases h with
    | here hea h0 => simp only [resolveTwo, hv1, readArg_neg 2 hea h0]
    | there _ h => cases h

theorem FirstNegative.resolveThree_eq {s : State} {a b d : Operand} {j : Nat} {ea : Int}
    (hd : d.mayBeWritten = true) (h : FirstNegative s.rb [a, b, d] j ea) :
    resolveThree s a b d = .error (s.addressFault (j + 1) ea) := by
  unfold resolveThree
  rw [if_pos hd]
  cases h with
  | here hea h0 => rw [(FirstNegative.here hea h0 : FirstNegative s.rb [a, b] 0 ea).resolveTwo_eq]
  | there hna h =>
    cases h with
    | here hea h0 =>
      rw [(FirstNegative.there hna (.here hea h0) : FirstNegative s.rb [a, b] 1 ea).resolveTwo_eq]
    | there hnb h =>
      obtain ⟨v1, hv1⟩ := exists_readArg_ok 1 hna
      obtain ⟨v2, hv2⟩ := exists_readArg_ok 2 hnb
      cases h with
      | here hea h0 => simp only [resolveTwo_ok_iff.2 ⟨hv1, hv2⟩, writeArg_neg 3 hea h0]
      | there _ h => cases h

theorem FirstNegative.storeResult_eq (f : Int → Int → Int) {s : State} {a b d : Operand} {j : Nat}
    {ea : Int} (hd : d.mayBeWritten = true) (h : FirstNegative s.rb [a, b, d] j ea) :
    storeResult f a b d s = .faulted (s.addressFault (j + 1) ea) := by
  simp only [storeResult, h.resolveThree_eq hd]

theorem FirstNegative.jumpResult_eq (taken : Int → Bool) {s : State} {c t : Operand} {j : Nat} {ea : Int}
    (h : FirstNegative s.rb [c, t] j ea) :
    jumpResult taken c t s = .faulted (s.addressFault (j + 1) ea) := by
  simp only [jumpResult, h.resolveTwo_eq]

/-- The first negative effective address ends a well-formed instruction (R74). -/
theorem FirstNegative.result_eq {i : Instr} {s : State} {j : Nat} {ea : Int} (hwf : i.wf = true)
    (h : FirstNegative s.rb i.operands j ea) : result i s = .faulted (s.addressFault (j + 1) ea) := by
  cases i with
  | add a b d | mul a b d | lessThan a b d | equals a b d => exact h.storeResult_eq _ hwf
  | jumpIfTrue c t | jumpIfFalse c t => exact h.jumpResult_eq _
  | input d => simp only [result, inputResult, h.writeArg_eq]
  | output a => simp only [result, outputResult, h.readArg_eq]
  | adjustRb a => simp only [result, adjustRbResult, h.readArg_eq]
  | halt => cases h

/-- Settles O9: the arguments are resolved in order, so the first negative address is the one that
faults. -/
theorem negativeEffectiveAddressFaults : Obligations.NegativeEffectiveAddressFaults := by
  refine ⟨fun i s j o ea hwf ho hea h0 hbefore => ?_, fun s k p => readArg_immediate k rfl⟩
  have hfirst : FirstNegative s.rb i.operands j ea := .of_getElem? ho hea h0 hbefore
  rw [exec_eq_result, hfirst.result_eq hwf]
  rfl

/-! ### The step of a word that decodes -/

theorem fetch_of_decode {s : State} {i : Instr}
    (h : decode (s.mem.read s.pc) (fun k => s.mem.read (s.pc + k)) = .ok i) : s.fetch = .ok i := by
  simp only [State.fetch, h]

theorem step_of_decode {s : State} {i : Instr} (hs : s.status = .running)
    (h : decode (s.mem.read s.pc) (fun k => s.mem.read (s.pc + k)) = .ok i) : step s = exec i s := by
  rw [step_running hs, attempt_of_fetch (fetch_of_decode h), exec_eq_result]

/-- Settles O35: the instruction fetched is the one decoded. -/
theorem stepExecutesTheDecodedInstr : Obligations.StepExecutesTheDecodedInstr :=
  fun _ _ hs h => step_of_decode hs h

/-- Settles O36: the cells of the encoded instruction are its canonical word and its literals. -/
theorem stepExecutesTheEncodedInstr : Obligations.StepExecutesTheEncodedInstr := by
  intro s i hs hwf hcells
  refine step_of_decode hs ?_
  rw [show s.mem.read s.pc = (i.word : Int) from hcells 0 _ (encode_getElem?_zero i)]
  exact decode_word hwf fun j o ho => hcells (j + 1) _ (encode_getElem?_succ ho)

theorem State.withFetchWord_read (s : State) (nbits w : Nat) {k : Nat} (hk : k ≤ 3) :
    (s.withFetchWord nbits w).mem.read (s.pc + k) = if k = 0 then (w : Int) else 0 := by
  have hload : (s.withFetchWord nbits w).mem.read (s.pc + k) = [(w : Int), 0, 0, 0].getD k 0 := by
    rw [State.withFetchWord, Memory.read_load, Nat.add_sub_cancel_left]
    exact if_pos ⟨Nat.le_add_right _ _, Nat.add_lt_add_left (Nat.lt_succ_of_le hk) _⟩
  rw [hload]
  match k, hk with
  | 0, _ => rfl
  | 1, _ => rfl
  | 2, _ => rfl
  | 3, _ => rfl

theorem decodeTableWord_eq_some {nbits w : Nat} {i : Instr} :
    decodeTableWord nbits w = some i ↔ decode (w : Int) (fun _ => 0) = .ok i := by
  unfold decodeTableWord
  cases decode (w : Int) (fun _ => 0) <;> simp

/-- Settles O39: the word and as many zeros as any opcode has arguments stand from `pc` on. -/
theorem placedWordIsExecuted : Obligations.PlacedWordIsExecuted := by
  intro s nbits w i h
  refine step_of_decode rfl ?_
  have hword : (s.withFetchWord nbits w).mem.read s.pc = (w : Int) :=
    s.withFetchWord_read nbits w (Nat.zero_le 3)
  rw [show (s.withFetchWord nbits w).pc = s.pc from rfl, hword]
  refine decode_congr_literals (decodeTableWord_eq_some.1 h) fun k hk hkn => ?_
  rw [s.withFetchWord_read nbits w (hkn.trans i.opcode.arity_le_three), if_neg (by omega)]

/-! ### The step of a word that does not decode -/

theorem attempt_of_decode_error {s : State} {e : DecodeError}
    (h : decode (s.mem.read s.pc) (fun k => s.mem.read (s.pc + k)) = .error e) :
    attempt s = .faulted (s.decodeErrorFault e) := by
  simp only [attempt, State.fetch, h]

theorem step_of_decode_error {s : State} {e : DecodeError} (hs : s.status = .running)
    (h : decode (s.mem.read s.pc) (fun k => s.mem.read (s.pc + k)) = .error e) :
    step s = .next (s.takeFault (s.decodeErrorFault e)) := by
  rw [step_running hs, attempt_of_decode_error h, StepResult.after_faulted]

/-- Settles O25: each kind of illegal word is rejected by its name, and the fault records the name. -/
theorem illegalWordRaisesDecodeFault : Obligations.IllegalWordRaisesDecodeFault := by
  rintro s w hs rfl
  refine ⟨fun hneg => ?_, fun h0 hop => ?_, fun op k h0 hop hk hkn hge hbefore => ?_⟩
  · exact step_of_decode_error hs (decode_of_neg _ hneg)
  · exact step_of_decode_error hs (decode_of_unknown _ h0 hop)
  · have hms := decodeModes_one_error_iff.2 ⟨hk, hkn, hge, hbefore⟩
    exact step_of_decode_error hs (decode_of_badMode _ h0 hop hms)

/-- Settles O47: the word at address 0 of the empty memory is 0, which names no opcode. -/
theorem emptyImageFaultsAtOnce : Obligations.EmptyImageFaultsAtOnce := by
  intro config inputs
  refine ⟨Memory.read_nil, ?_⟩
  exact step_of_decode_error (s := State.new config [] inputs) rfl
    (decode_of_unknown (w := 0) _ (le_refl 0) (by decide))

/-! ### Pseudo-instructions (R84) -/

theorem exec_mov {src dst : Operand} {s : State} {v : Int} {a : Nat} (hsrc : readArg s 1 src = .ok v)
    (hdst : writeArg s 3 dst = .ok a) :
    exec (.mov src dst) s = .next { s with mem := s.mem.write a v, pc := s.pc + 4 } := by
  have hzero : readArg s 2 (.imm 0) = .ok 0 := readArg_immediate 2 rfl
  have hres : result (.mov src dst) s = .completed ((s.writeMem a (v + 0)).advance 4) :=
    storeResult_completed hsrc hzero hdst
  rw [exec_eq_result, hres, Int.add_zero]
  rfl

theorem exec_jmp {target : Operand} {s : State} {v : Int} (htarget : readArg s 2 target = .ok v)
    (h0 : 0 ≤ v) : exec (.jmp target) s = .next { s with pc := v.toNat } := by
  have hone : readArg s 1 (.imm 1) = .ok 1 := readArg_immediate 1 rfl
  have hres : result (.jmp target) s = .completed (s.setPc v.toNat) := by
    rw [Instr.jmp, result, jumpIfTrueResult, jumpResult_of_args hone htarget, if_pos (by decide),
      if_neg (not_lt.2 h0)]
  rw [exec_eq_result, hres]
  rfl

theorem exec_nop (s : State) : exec .nop s = .next { s with pc := s.pc + 3 } := by
  have hzero : ∀ k, readArg s k (.imm 0) = .ok 0 := fun k => readArg_immediate k rfl
  have hres : result .nop s = .completed (s.advance 3) := by
    rw [Instr.nop, result, jumpIfTrueResult, jumpResult_of_args (hzero 1) (hzero 2),
      if_neg (by decide)]
  rw [exec_eq_result, hres]
  rfl

/-- Settles O6: each pseudo-instruction by its expansion, whose immediate operands never fault. -/
theorem pseudoInstructions : Obligations.PseudoInstructions :=
  ⟨fun _ _ => ⟨rfl, encode_length _⟩, fun _ => ⟨rfl, encode_length _⟩, rfl,
    fun s => ⟨fun _ _ _ _ => exec_mov, fun _ _ => exec_jmp, exec_nop s⟩⟩

end Sys2Proof.Machine
end

section
/-! The machine against the cycle of R75 (R63, R221): each check of the cycle is the decoder's or the
resolver's, and where none fails the rule of the opcode is the instruction's meaning. -/

namespace Sys2Proof.Machine

/-- The literal `p[k]` of the cycle: the cell `k` places after the word (R60, R70). -/
def State.literal (s : State) (k : Nat) : Int := s.mem.read (s.pc + k)

/-! ### The checks of the cycle -/

namespace Reference

theorem mode_eq_digit (w : Int) {k : Nat} (hk : 1 ≤ k) : mode w k = digit w.toNat (k + 1) := by
  obtain ⟨j, rfl⟩ := Nat.exists_eq_add_of_le' hk
  rw [mode, Nat.add_sub_cancel]
  exact digit_div_hundred w.toNat j

theorem arity_number (op : Opcode) : arity op.number = op.arity := by cases op <;> rfl

theorem wpos_number (op : Opcode) : wpos op.number = op.writePosition? := by cases op <;> rfl

theorem find?_positions_eq_some {n k : Nat} {p : Nat → Bool} :
    (positions n).find? p = some k ↔
      1 ≤ k ∧ k ≤ n ∧ p k = true ∧ ∀ j, 1 ≤ j → j < k → p j = false := by
  rw [positions, List.find?_map, Option.map_eq_some_iff]
  simp only [List.find?_range_eq_some, List.mem_range, Function.comp_apply, Bool.not_eq_true']
  constructor
  · rintro ⟨j, ⟨hp, hj, hbefore⟩, rfl⟩
    refine ⟨Nat.succ_pos j, hj, hp, fun j' h1 hlt => ?_⟩
    obtain ⟨i, rfl⟩ := Nat.exists_eq_add_of_le' h1
    exact hbefore i (Nat.lt_of_succ_lt_succ hlt)
  · rintro ⟨h1, hkn, hp, hbefore⟩
    obtain ⟨j, rfl⟩ := Nat.exists_eq_add_of_le' h1
    exact ⟨j, ⟨hp, hkn, fun i hi => hbefore (i + 1) (Nat.succ_pos i) (Nat.succ_lt_succ hi)⟩, rfl⟩

theorem find?_positions_eq_none {n : Nat} {p : Nat → Bool} :
    (positions n).find? p = none ↔ ∀ k, 1 ≤ k → k ≤ n → p k = false := by
  simp only [List.find?_eq_none, positions, List.mem_map, List.mem_range, Bool.not_eq_true]
  constructor
  · intro h k h1 hkn
    exact h k ⟨k - 1, by omega, Nat.sub_add_cancel h1⟩
  · rintro h k ⟨j, hj, rfl⟩
    exact h (j + 1) (Nat.succ_pos j) hj

theorem mode_bad_iff {w : Int} {k : Nat} (hk : 1 ≤ k) :
    mode w k ∉ [0, 1, 2] ↔ 3 ≤ digit w.toNat (k + 1) := by
  rw [mode_eq_digit w hk]
  simp only [List.mem_cons, List.not_mem_nil, or_false]
  omega

/-- The loop of R63 stops at the argument the decoder blames. -/
theorem find?_badMode_eq_some {w : Int} {n k : Nat} :
    (positions n).find? (fun k => decide (mode w k ∉ [0, 1, 2])) = some k ↔
      decodeModes w.toNat 1 n = .error k := by
  rw [find?_positions_eq_some, decodeModes_one_error_iff]
  refine and_congr_right fun hk => and_congr_right fun _ => ?_
  simp only [decide_eq_true_eq, decide_eq_false_iff_not, mode_bad_iff hk]
  refine and_congr_right fun _ => forall_congr' fun j => forall_congr' fun hj => ?_
  rw [mode_bad_iff hj, not_le]

/-- The loop of R63 runs to its end exactly where the modes decode. -/
theorem find?_badMode_eq_none {w : Int} {n : Nat} :
    (positions n).find? (fun k => decide (mode w k ∉ [0, 1, 2])) = none ↔
      ∃ ms, decodeModes w.toNat 1 n = .ok ms := by
  rw [find?_positions_eq_none, exists_decodeModes_ok_iff]
  refine forall_congr' fun k => forall_congr' fun hk => forall_congr' fun _ => ?_
  rw [decide_eq_false_iff_not, mode_bad_iff hk, not_le]

/-- The check of R69 fails exactly where the write argument's decoded mode is immediate. -/
theorem wpos_immediate_iff {w : Int} {op : Opcode} {ms : List Mode}
    (hms : decodeModes w.toNat 1 op.arity = .ok ms) :
    (wpos op.number).any (fun k => decide (mode w k = 1)) = true ↔
      ∃ k, op.writePosition? = some k ∧ ms[k - 1]? = some .immediate := by
  rw [wpos_number]
  simp only [Option.any_eq_true, decide_eq_true_eq]
  refine exists_congr fun k => and_congr_right fun hwrite => ?_
  have hk := Opcode.one_le_writePosition hwrite
  rw [mode_eq_digit w hk, decodeModes_immediate_iff hms hk (Opcode.writePosition_le_arity hwrite)]

/-- An argument of the decoded instruction carries the mode that the cycle reads off the word. -/
theorem argument_eq {w : Int} {n k : Nat} {ms : List Mode} (lit : Nat → Int)
    (hms : decodeModes w.toNat 1 n = .ok ms) (hk : 1 ≤ k) (hkn : k ≤ n) :
    ∃ m : Mode, mode w k = m.toDigit ∧ argument ms lit k = { mode := m, literal := lit k } := by
  obtain ⟨hlen, -⟩ := decodeModes_ok_iff.1 hms
  have hlt : k - 1 < ms.length := by omega
  refine ⟨ms[k - 1], ?_, by simp [argument, hlt]⟩
  rw [mode_eq_digit w hk]
  exact digit_of_decodeModes hms hk (List.getElem?_eq_getElem hlt)

/-- `EA` of R71 as the cycle computes it from the mode digit of argument `k`. -/
def address (s : State) (k : Nat) : Int :=
  addressByDigit (mode (s.mem.read s.pc) k) (s.literal k) s.rb

/-- The value of a read argument as the cycle computes it (R72). -/
def value (s : State) (k : Nat) : Int :=
  if mode (s.mem.read s.pc) k = 1 then s.literal k else s.mem.read (address s k).toNat

/-- Argument `k` has a negative effective address (R74). -/
def negativeAt (s : State) (k : Nat) : Bool :=
  decide (mode (s.mem.read s.pc) k ≠ 1) && decide (address s k < 0)

theorem effectiveAddress_argument {s : State} {n k : Nat} {ms : List Mode}
    (hms : decodeModes (s.mem.read s.pc).toNat 1 n = .ok ms) (hk : 1 ≤ k) (hkn : k ≤ n) :
    effectiveAddress (argument ms s.literal k) s.rb =
      if mode (s.mem.read s.pc) k = 1 then none else some (address s k) := by
  obtain ⟨m, hm, harg⟩ := argument_eq s.literal hms hk hkn
  rw [harg, address, hm]
  cases m <;> rfl

theorem address_eq {s : State} {n k : Nat} {ms : List Mode} {ea : Int}
    (hms : decodeModes (s.mem.read s.pc).toNat 1 n = .ok ms) (hk : 1 ≤ k) (hkn : k ≤ n)
    (hea : effectiveAddress (argument ms s.literal k) s.rb = some ea) : address s k = ea := by
  rw [effectiveAddress_argument hms hk hkn] at hea
  split at hea
  · cases hea
  · exact Option.some.inj hea

theorem negativeAt_iff {s : State} {n k : Nat} {ms : List Mode}
    (hms : decodeModes (s.mem.read s.pc).toNat 1 n = .ok ms) (hk : 1 ≤ k) (hkn : k ≤ n) :
    negativeAt s k = true ↔
      effectiveAddress (argument ms s.literal k) s.rb = some (address s k) ∧
        address s k < 0 := by
  rw [effectiveAddress_argument hms hk hkn, negativeAt]
  by_cases hmode : mode (s.mem.read s.pc) k = 1 <;> simp [hmode]

/-- Where the loop of R75 stops, the first negative effective address stands. -/
theorem firstNegative_of_find? {s : State} {op : Opcode} {ms : List Mode} {k : Nat}
    (hms : decodeModes (s.mem.read s.pc).toNat 1 op.arity = .ok ms)
    (h : (positions op.arity).find? (negativeAt s) = some k) :
    1 ≤ k ∧ FirstNegative s.rb (assemble op ms s.literal).operands (k - 1)
      (address s k) := by
  obtain ⟨hk, hkn, hneg, hbefore⟩ := find?_positions_eq_some.1 h
  obtain ⟨hea, h0⟩ := (negativeAt_iff hms hk hkn).1 hneg
  refine ⟨hk, .of_getElem? (o := argument ms s.literal k) ?_ hea h0 ?_⟩
  · simp [Nat.sub_add_cancel hk, show k - 1 < op.arity by omega]
  · intro j o ea hj ho hea'
    have hjn : j + 1 ≤ op.arity := by omega
    obtain rfl : argument ms s.literal (j + 1) = o := by
      simpa [Nat.lt_of_succ_le hjn] using ho
    obtain rfl := address_eq hms (Nat.succ_pos j) hjn hea'
    by_contra hlt
    have hneg' := (negativeAt_iff hms (Nat.succ_pos j) hjn).2 ⟨hea', not_le.1 hlt⟩
    rw [hbefore (j + 1) (Nat.succ_pos j) (by omega)] at hneg'
    cases hneg'

end Reference

/-! ### The rule of the opcode -/

/-- The values `v` and addresses `a` of the cycle's locals are those the arguments resolve to. -/
structure ArgumentsResolve (s : State) (op : Opcode) (arg : Nat → Operand) (v : Nat → Int)
    (a : Nat → Nat) : Prop where
  read : ∀ k, 1 ≤ k → k ≤ op.arity → readArg s k (arg k) = .ok (v k)
  write : ∀ k, op.writePosition? = some k → writeArg s k (arg k) = .ok (a k)

theorem State.outputFull_eq_any (s : State) :
    s.outputFull = s.config.outCap.any (fun c => decide (c ≤ s.outq.length)) := by
  unfold State.outputFull
  cases s.config.outCap <;> rfl

/-- Where its arguments resolve, a decoded instruction has the rule of its opcode. -/
theorem ArgumentsResolve.result_eq_rule {s : State} {op : Opcode} {ms : List Mode} {lit : Nat → Int}
    {v : Nat → Int} {a : Nat → Nat} (h : ArgumentsResolve s op (argument ms lit) v a) :
    result (assemble op ms lit) s = Reference.rule op.number (s.mem.read s.pc) v a s := by
  obtain ⟨hread, hwrite⟩ := h
  have h1 : 1 ≤ op.arity → readArg s 1 (argument ms lit 1) = .ok (v 1) := hread 1 (le_refl 1)
  have h2 : 2 ≤ op.arity → readArg s 2 (argument ms lit 2) = .ok (v 2) := hread 2 (by decide)
  cases op with
  | add | mul => exact storeResult_completed (h1 (by decide)) (h2 (by decide)) (hwrite 3 rfl)
  | lessThan =>
    have hres := storeResult_completed (f := lessThanValue) (h1 (by decide)) (h2 (by decide)) (hwrite 3 rfl)
    rw [lessThanValue_eq] at hres
    exact hres
  | equals =>
    have hres := storeResult_completed (f := equalsValue) (h1 (by decide)) (h2 (by decide)) (hwrite 3 rfl)
    rw [equalsValue_eq] at hres
    exact hres
  | jumpIfTrue | jumpIfFalse => exact jumpResult_of_args (h1 (by decide)) (h2 (by decide))
  | input =>
    simp only [assemble, result, inputResult, hwrite 1 rfl]
    cases hq : s.inq with
    | nil => simp [Reference.rule, Opcode.number, hq]
    | cons x rest =>
      simp [Reference.rule, Opcode.number, hq, State.writeMem, State.setInq, State.advance]
  | output =>
    simp only [assemble, result, outputResult, h1 (by decide), s.outputFull_eq_any]
    rfl
  | adjustRb =>
    simp only [assemble, result, adjustRbResult, h1 (by decide)]
    rfl
  | halt => rfl

/-- Where the loop of R75 runs to its end, every argument resolves. -/
theorem ArgumentsResolve.of_find? {s : State} {op : Opcode} {ms : List Mode}
    (hw : decodeWord (s.mem.read s.pc) = .ok (op, ms))
    (h : (Reference.positions op.arity).find? (Reference.negativeAt s) = none) :
    ArgumentsResolve s op (argument ms s.literal) (Reference.value s)
      (fun k => (Reference.address s k).toNat) := by
  obtain ⟨-, -, hms, hwrite⟩ := decodeWord_ok_iff.1 hw
  have hnonneg : ∀ k, 1 ≤ k → k ≤ op.arity → Reference.mode (s.mem.read s.pc) k ≠ 1 →
      0 ≤ Reference.address s k := by
    intro k hk hkn hmode
    have hpos := Reference.find?_positions_eq_none.1 h k hk hkn
    simpa [Reference.negativeAt, hmode] using hpos
  refine ⟨fun k hk hkn => ?_, fun k hwp => ?_⟩
  · have hea := Reference.effectiveAddress_argument hms hk hkn
    by_cases hmode : Reference.mode (s.mem.read s.pc) k = 1
    · rw [if_pos hmode] at hea
      rw [readArg_immediate k hea, Reference.value, if_pos hmode]
      rfl
    · rw [if_neg hmode] at hea
      rw [readArg_nonneg k hea (hnonneg k hk hkn hmode), Reference.value, if_neg hmode]
  · have hk := Opcode.one_le_writePosition hwp
    have hkn := Opcode.writePosition_le_arity hwp
    have hmode : Reference.mode (s.mem.read s.pc) k ≠ 1 := by
      rw [Reference.mode_eq_digit _ hk, ne_eq, ← decodeModes_immediate_iff hms hk hkn]
      exact hwrite k hwp
    have hea := Reference.effectiveAddress_argument hms hk hkn
    rw [if_neg hmode] at hea
    exact writeArg_nonneg k hea (hnonneg k hk hkn hmode)

theorem attempt_of_decodeWord {s : State} {op : Opcode} {ms : List Mode}
    (hw : decodeWord (s.mem.read s.pc) = .ok (op, ms)) :
    attempt s = result (assemble op ms s.literal) s :=
  attempt_of_fetch (fetch_of_decode (decode_of_decodeWord _ hw))

theorem attempt_of_negative {s : State} {op : Opcode} {ms : List Mode} {k : Nat}
    (hw : decodeWord (s.mem.read s.pc) = .ok (op, ms))
    (h : (Reference.positions op.arity).find? (Reference.negativeAt s) = some k) :
    attempt s = .faulted (s.addressFault k (Reference.address s k)) := by
  obtain ⟨-, -, hms, -⟩ := decodeWord_ok_iff.1 hw
  obtain ⟨hk, hfirst⟩ := Reference.firstNegative_of_find? hms h
  rw [attempt_of_decodeWord hw, hfirst.result_eq (wf_of_decodeWord _ hw), Nat.sub_add_cancel hk]

theorem attempt_of_resolved {s : State} {op : Opcode} {ms : List Mode}
    (hw : decodeWord (s.mem.read s.pc) = .ok (op, ms))
    (h : (Reference.positions op.arity).find? (Reference.negativeAt s) = none) :
    attempt s = Reference.rule op.number (s.mem.read s.pc) (Reference.value s)
      (fun k => (Reference.address s k).toNat) s := by
  rw [attempt_of_decodeWord hw, (ArgumentsResolve.of_find? hw h).result_eq_rule]

/-- The cycle of R75 and the machine agree, check by check in the cycle's order. -/
theorem attempt_eq_cycle (s : State) : attempt s = Reference.cycle s := by
  unfold Reference.cycle
  dsimp only
  split
  · next hneg => exact attempt_of_decode_error (decode_of_neg _ hneg)
  next h0 =>
  replace h0 : 0 ≤ s.mem.read s.pc := not_lt.1 h0
  split
  · next hop => exact attempt_of_decode_error (decode_of_unknown _ h0 hop)
  next hop =>
  obtain ⟨op, hop⟩ := Opcode.exists_ofNumber?_eq_some (not_not.1 hop)
  rw [Opcode.ofNumber?_eq_some.1 hop, Reference.arity_number]
  split
  · next k hbad =>
    have hms := Reference.find?_badMode_eq_some.1 hbad
    exact attempt_of_decode_error (decode_of_badMode _ h0 hop hms)
  next hgood =>
  obtain ⟨ms, hms⟩ := Reference.find?_badMode_eq_none.1 hgood
  split
  · next himm =>
    obtain ⟨k, hwrite, himm⟩ := (Reference.wpos_immediate_iff hms).1 himm
    rw [Reference.wpos_number, hwrite]
    exact attempt_of_decode_error (decode_of_immediateTarget _ h0 hop hms hwrite himm)
  next himm =>
  have hw : decodeWord (s.mem.read s.pc) = .ok (op, ms) := decodeWord_ok_iff.2
    ⟨h0, hop, hms, fun k hwrite hm => himm ((Reference.wpos_immediate_iff hms).2 ⟨k, hwrite, hm⟩)⟩
  split
  · next k hnegative => exact attempt_of_negative hw hnegative
  · next hresolved => exact attempt_of_resolved hw hresolved

/-- Settles O37: by the agreement of the attempt with the cycle, the step being the attempt's outcome. -/
theorem stepIsTheInstructionCycle : Obligations.StepIsTheInstructionCycle := by
  intro s hs
  refine ⟨attempt_eq_cycle s, ?_⟩
  rw [step_running hs, attempt_eq_cycle]

end Sys2Proof.Machine
end

section
/-! When a machine of a network can take a global step, and what the step leaves of it (R236, R239). -/

namespace Sys2Proof.Machine

theorem State.canStep_iff_suspension {s : State} :
    s.canStep = true ↔ s.status = .running ∧ suspension s = none := by
  simp [State.canStep]

theorem Network.view?_eq_some {n : Network} {i : Nat} {v : State} :
    n.view? i = some v ↔ ∃ m, n.machines[i]? = some m ∧
      v = { m with inq := n.inQueue i m, outq := n.outQueue i m } := by
  unfold Network.view?
  cases n.machines[i]? <;> simp [eq_comm]

/-- A global step of machine `i` exists exactly when its view can step. -/
theorem Network.exists_globalStep_iff {n : Network} {i : Nat} :
    (∃ m, n.globalStep i = some m) ↔ ∃ v, n.view? i = some v ∧ v.canStep = true := by
  constructor
  · rintro ⟨n', h⟩
    obtain ⟨m, v, t, hm, hv, hc, -, -⟩ := Network.globalStep_eq_some.1 h
    exact ⟨v, Network.view?_eq_some.2 ⟨m, hm, hv⟩, hc⟩
  · rintro ⟨v, hv, hc⟩
    obtain ⟨m, hm, hv⟩ := Network.view?_eq_some.1 hv
    have hs : v.status = .running := (State.canStep_iff.1 hc).1
    exact ⟨_, Network.globalStep_eq_some.2 ⟨m, v, _, hm, hv, hc, step_running hs, rfl⟩⟩

/-- Machine `i` keeps what the step of its view leaves, but for the queues at its wired ends. -/
theorem Network.globalStep_machine {n n' : Network} {i : Nat} {v t : State}
    (h : n.globalStep i = some n') (hv : n.view? i = some v) (ht : step v = .next t) :
    ∃ m, n'.machines[i]? = some (n.kept i m t) := by
  obtain ⟨m, v', t', hm, hv', -, ht', rfl⟩ := Network.globalStep_eq_some.1 h
  obtain rfl : v' = v := by
    simpa [Network.view?_eq_some.2 ⟨m, hm, hv'⟩] using hv
  obtain rfl : t' = t := by simpa [ht'] using ht
  obtain ⟨hi, -⟩ := List.getElem?_eq_some_iff.1 hm
  exact ⟨m, List.getElem?_set_self hi⟩

/-- Settles O60: a global step is a step of the view, and only the queues at wired ends are not taken
over from it. -/
theorem globalStepIsOneStepOfItsMachine : Obligations.GlobalStepIsOneStepOfItsMachine := by
  refine fun n i => ⟨by simp only [Network.exists_globalStep_iff, State.canStep_iff_suspension], ?_⟩
  intro n' v t h hv ht
  obtain ⟨m, hm⟩ := Network.globalStep_machine h hv ht
  refine ⟨n.kept i m t, hm, rfl, rfl, rfl, rfl, rfl, fun hin => ?_, fun hout => ?_⟩
  · simp only [Network.kept, hin]
  · simp only [Network.kept, hout]

end Sys2Proof.Machine
end

section
/-! The arithmetic instructions (R100 to R102): each is a store of the exact value of its operation. -/

namespace Sys2Proof.Machine

/-- An instruction whose meaning is a store, once its arguments resolve: the cell of argument 3 and `pc`
change, and no other field. -/
theorem exec_of_store {i : Instr} {f : Int → Int → Int} {a b d : Operand} {s : State} {v1 v2 : Int}
    {a3 : Nat} (hi : result i s = storeResult f a b d s) (h1 : readArg s 1 a = .ok v1)
    (h2 : readArg s 2 b = .ok v2) (h3 : writeArg s 3 d = .ok a3) :
    exec i s = .next { s with mem := s.mem.write a3 (f v1 v2), pc := s.pc + 4 } := by
  rw [exec_eq_result, hi, storeResult_completed h1 h2 h3]
  rfl

/-- Settles O10: add is the store of the sum. -/
theorem addStoresTheSum : Obligations.AddStoresTheSum :=
  fun _ _ _ _ _ _ _ h1 h2 h3 => exec_of_store (f := fun v1 v2 => v1 + v2) rfl h1 h2 h3

/-- Settles O11: mul is the store of the product. -/
theorem mulStoresTheProduct : Obligations.MulStoresTheProduct :=
  fun _ _ _ _ _ _ _ h1 h2 h3 => exec_of_store (f := fun v1 v2 => v1 * v2) rfl h1 h2 h3

end Sys2Proof.Machine
end

section
/-! The I/O instructions and the host's ends of the queues (R121, R122, R125 to R131): what input and output do
when they complete, how they go on once the host has made a value or a place, and that both queues are FIFO
over a whole run. -/

namespace Sys2Proof.Machine

/-! ### The two instructions when they do not wait -/

theorem result_input_of_inq {d : Operand} {s : State} {a1 : Nat} {v : Int} {rest : List Int}
    (ha : writeArg s 1 d = .ok a1) (hq : s.inq = v :: rest) :
    result (.input d) s = .completed (((s.writeMem a1 v).setInq rest).advance 2) := by
  simp only [result, inputResult, ha, hq]

theorem result_output_of_room {a : Operand} {s : State} {v : Int} (hv : readArg s 1 a = .ok v)
    (hroom : s.outputFull = false) :
    result (.output a) s = .completed ((s.emit v).advance 2) := by
  simp [result, outputResult, hv, hroom]

/-- Settles O15: where its argument resolves and a value waits, an input completes. -/
theorem inputConsumesTheOldestValue : Obligations.InputConsumesTheOldestValue := by
  intro d s a1 v rest ha hq
  rw [exec_eq_result, result_input_of_inq ha hq]
  rfl

/-- Settles O16: room below every capacity means that the channel is not full, and then an output
completes. -/
theorem outputAppendsTheValue : Obligations.OutputAppendsTheValue := by
  intro a s v hv hroom
  rw [exec_eq_result, result_output_of_room hv (s.outputFull_eq_false_iff.2 hroom)]
  rfl

/-! ### The host's queue operations -/

theorem State.takeOutput_nil {s : State} (h : s.outq = []) : s.takeOutput = none := by
  simp only [State.takeOutput, h]

theorem State.takeOutput_cons {s : State} {v : Int} {rest : List Int} (h : s.outq = v :: rest) :
    s.takeOutput = some (v, { s with outq := rest }) := by
  simp only [State.takeOutput, h]

theorem State.afterHostOp_takeOutput_nil {s : State} (h : s.outq = []) :
    s.afterHostOp .takeOutput = s := by
  simp only [State.afterHostOp, State.takeOutput_nil h]

theorem State.afterHostOp_takeOutput_cons {s : State} {v : Int} {rest : List Int}
    (h : s.outq = v :: rest) : s.afterHostOp .takeOutput = { s with outq := rest } := by
  simp only [State.afterHostOp, State.takeOutput_cons h]

/-- An input resolves its argument without looking at the queues, so after an offer it consumes the oldest
of the values that then wait. -/
theorem exec_input_offerInput {d : Operand} {s : State} {a1 : Nat} {v w : Int} {rest : List Int}
    (ha : writeArg s 1 d = .ok a1) (hq : s.inq ++ [v] = w :: rest) :
    exec (.input d) (s.offerInput v) =
      .next { s with mem := s.mem.write a1 w, inq := rest, pc := s.pc + 2 } :=
  inputConsumesTheOldestValue d (s.offerInput v) a1 w rest ha hq

/-- Settles O49: by whether `outq` is empty, and for the next input by what it does to any state. -/
theorem hostQueueOperations : Obligations.HostQueueOperations :=
  fun _ => ⟨fun _ => rfl, fun _ _ _ _ _ ha hq => exec_input_offerInput ha hq,
    fun h => ⟨State.takeOutput_nil h, State.afterHostOp_takeOutput_nil h⟩,
    fun _ _ h => ⟨State.takeOutput_cons h, State.afterHostOp_takeOutput_cons h⟩⟩

/-! ### Going on after a suspension (R130) -/

theorem step_of_fetch {s : State} {i : Instr} (hs : s.status = .running) (h : s.fetch = .ok i) :
    step s = exec i s := by
  rw [step_running hs, attempt_of_fetch h, exec_eq_result]

/-- The instruction that waits is an input whose argument resolves, with nothing to consume, or an output
whose argument resolves, with no room (R219, R220). -/
theorem attempt_suspended {s : State} {r : SuspendReason} (h : attempt s = .suspended r) :
    (r = .inputStarvation ∧ s.inq = [] ∧
      ∃ d a1, s.fetch = .ok (.input d) ∧ writeArg s 1 d = .ok a1) ∨
    (r = .outputBackpressure ∧ s.outputFull = true ∧
      ∃ a v, s.fetch = .ok (.output a) ∧ readArg s 1 a = .ok v) := by
  rcases attempt_cases s with ⟨i, hfetch, hi, hr⟩ | ⟨e, -, hr⟩
  · rw [h] at hi hr
    cases hr with
    | starved hinput hq =>
      obtain ⟨d, rfl⟩ := hinput
      cases ha : writeArg s 1 d with
      | error f => simp [result, inputResult, ha] at hi
      | ok a1 => exact .inl ⟨rfl, hq, d, a1, hfetch, ha⟩
    | blocked houtput hfull =>
      obtain ⟨a, rfl⟩ := houtput
      cases hv : readArg s 1 a with
      | error f => simp [result, outputResult, hv] at hi
      | ok v => exact .inr ⟨rfl, hfull, a, v, hfetch, hv⟩
  · rw [h] at hr
    cases hr

/-- Settles O33: an offer changes neither the memory fetched from nor the argument, so the same input is
executed, with the offered value as the only one waiting. -/
theorem offeredInputResumes : Obligations.OfferedInputResumes := by
  intro s v h
  obtain ⟨hs, hwait⟩ := suspension_eq_some.1 h
  rcases attempt_suspended hwait with ⟨-, hq, d, a1, hfetch, ha⟩ | ⟨hr, -⟩
  · refine ⟨d, a1, hfetch, ha, ?_⟩
    have hstep : step (s.offerInput v) = exec (.input d) (s.offerInput v) := step_of_fetch hs hfetch
    rw [hstep]
    exact exec_input_offerInput ha (by rw [hq, List.nil_append])
  · cases hr

/-- Settles O34: taking a value changes neither the memory fetched from nor the argument, so the same output
is executed, with one place free. -/
theorem takenOutputResumes : Obligations.TakenOutputResumes := by
  intro s x rest h hcap hq
  obtain ⟨hs, hwait⟩ := suspension_eq_some.1 h
  rcases attempt_suspended hwait with ⟨hr, -⟩ | ⟨-, -, a, v, hfetch, hv⟩
  · cases hr
  · refine ⟨a, v, hfetch, hv, ?_⟩
    have hstep : step { s with outq := rest } = exec (.output a) { s with outq := rest } :=
      step_of_fetch hs hfetch
    rw [State.afterHostOp_takeOutput_cons hq, hstep]
    refine outputAppendsTheValue a { s with outq := rest } v hv fun c hc => ?_
    obtain rfl : rest.length + 1 = c := by simpa [hcap] using hc
    exact Nat.lt_succ_self _

/-! ### Both queues over a run (R125) -/

/-- One step leads from `s` to `t`. -/
def StepsTo (s t : State) : Prop := step s = .next t

/-- A run ends in a state that steps lead to. -/
theorem run_reaches (budget : Nat) (s : State) :
    Relation.ReflTransGen StepsTo s (run budget s).2 := by
  induction budget generalizing s with
  | zero => exact .refl
  | succ budget ih =>
    cases hend : s.runEnd? with
    | some o => rw [run_of_runEnd hend]
    | none =>
      cases hstep : step s with
      | next t =>
        have hfirst : StepsTo s t := hstep
        simpa only [run, hend, hstep] using (ih t).head hfirst
      | fault r => exact nomatch r
      | refused r => simpa only [run, hend, hstep] using .refl

/-- What stands in `outq` beyond its former length has been put after all of its former values exactly when
those are still in front. -/
theorem eq_append_emittedBetween_iff {s t : State} :
    t.outq = s.outq ++ emittedBetween s t ↔ s.outq <+: t.outq := by
  rw [List.prefix_iff_eq_append, emittedBetween, eq_comm]

/-- Along any sequence of steps `inq` loses values at its front only and `outq` gains values at its end
only. -/
theorem queues_of_reaches {s t : State} (h : Relation.ReflTransGen StepsTo s t) :
    t.inq <:+ s.inq ∧ s.outq <+: t.outq := by
  induction h with
  | refl => exact ⟨List.suffix_rfl, List.prefix_rfl⟩
  | tail _ hstep ih =>
    obtain ⟨⟨consumed, hin⟩, hout⟩ := step_queues hstep
    exact ⟨.trans ⟨consumed, hin.symm⟩ ih.1, ih.2.trans (eq_append_emittedBetween_iff.1 hout)⟩

theorem CompletionOf.emitted_of_output {s t : State} {a : Operand} (h : CompletionOf s (.output a) t) :
    ∃ v, readArg s 1 a = .ok v ∧ t = (s.emit v).advance 2 := by
  cases h with
  | stored v hd => cases hd
  | emitted hv => exact ⟨_, hv, rfl⟩

/-- Settles O43: for one instruction by what its completion leaves, for a run along its steps. -/
theorem queuesAreFifo : Obligations.QueuesAreFifo := by
  refine ⟨fun d s t h => ?_, fun a s t h => ?_, fun budget s t o h => ?_⟩
  · obtain ⟨a1, v, rest, ha, hq, rfl⟩ := (result_completed h).consumed_of_input
    exact ⟨v, a1, ha, hq, Memory.read_write_same s.mem a1 v⟩
  · obtain ⟨v, hv, rfl⟩ := (result_completed h).emitted_of_output
    exact ⟨v, hv, rfl⟩
  · have hreach := run_reaches budget s
    rw [h] at hreach
    obtain ⟨⟨consumed, hin⟩, hout⟩ := queues_of_reaches hreach
    exact ⟨⟨consumed, hin.symm⟩, eq_append_emittedBetween_iff.2 hout⟩

end Sys2Proof.Machine
end

section
/-! A channel is FIFO (R237): what a global step takes from its front and puts at its end. -/

namespace Sys2Proof.Machine

/-- The channels after a global step are those its machine's step leaves, each in its place. -/
theorem Network.globalStep_channels {n n' : Network} {i : Nat} {v t : State}
    (h : n.globalStep i = some n') (hv : n.view? i = some v) (ht : step v = .next t) :
    n'.channels = n.channelsAfter i t.inq (emittedBetween v t) := by
  obtain ⟨m, v', t', hm, hv', -, ht', rfl⟩ := Network.globalStep_eq_some.1 h
  obtain rfl : v' = v := by
    simpa [Network.view?_eq_some.2 ⟨m, hm, hv'⟩] using hv
  obtain rfl : t' = t := by simpa [ht'] using ht
  rfl

/-- A machine steps with the queue of the channel wired to its input as its `inq`. -/
theorem Network.view?_inq {n : Network} {v : State} {c : Channel} (hw : n.wired = true)
    (hc : c ∈ n.channels) (hv : n.view? c.consumer = some v) : v.inq = c.queue := by
  obtain ⟨m, -, rfl⟩ := Network.view?_eq_some.1 hv
  simp only [Network.inQueue, Network.inChannel?_of_mem hw hc]

/-- The values a step of machine `i` takes from a channel: those by which its own `inq` gets shorter where
it is the consumer, and none otherwise. -/
theorem Network.exists_taken {n : Network} {i : Nat} {v t : State} {c : Channel} (hw : n.wired = true)
    (hc : c ∈ n.channels) (hv : n.view? i = some v) (ht : step v = .next t) :
    ∃ more, (if c.consumer = i then v.inq = c.queue ∧ c.queue = more ++ t.inq else more = []) ∧
      c.queue = more ++ if c.consumer = i then t.inq else c.queue := by
  by_cases hi : c.consumer = i
  · subst hi
    have hinq : v.inq = c.queue := Network.view?_inq hw hc hv
    obtain ⟨⟨consumed, hcons⟩, -⟩ := step_queues ht
    rw [hinq] at hcons
    exact ⟨consumed, by rw [if_pos rfl]; exact ⟨hinq, hcons⟩, by rw [if_pos rfl]; exact hcons⟩
  · exact ⟨[], by rw [if_neg hi], by rw [if_neg hi, List.nil_append]⟩

/-! ### A channel from whose front `more` has been taken -/

theorem Channel.queue_append_eq_afterStep {c : Channel} {i : Nat} {q more : List Int} (w : List Int)
    (h : c.queue = more ++ if c.consumer = i then q else c.queue) :
    c.queue ++ (if c.producer = i then w else []) = more ++ (c.afterStep i q w).queue := by
  rw [c.afterStep_queue, ← List.append_assoc, ← h]

/-- If what was emitted is what was taken followed by what is queued, it still is. -/
theorem Channel.afterStep_emitted_eq_taken {c : Channel} {i : Nat} {q more taken : List Int}
    (w : List Int) (h : c.queue = more ++ if c.consumer = i then q else c.queue)
    (htaken : c.emitted = taken ++ c.queue) :
    (c.afterStep i q w).emitted = taken ++ more ++ (c.afterStep i q w).queue := by
  rw [c.afterStep_emitted, htaken, List.append_assoc, List.append_assoc,
    Channel.queue_append_eq_afterStep w h]

/-- Settles O58: with the values taken from the front named, what the channel's queue and record become is
what `Channel.afterStep` makes of them. -/
theorem channelsAreFifo : Obligations.ChannelsAreFifo := by
  intro n n' i v t k c hw h hv ht hk
  obtain ⟨more, hmore, hsplit⟩ := Network.exists_taken hw (List.mem_of_getElem? hk) hv ht
  have hd : n'.channels[k]? = some (c.afterStep i t.inq (emittedBetween v t)) := by
    rw [Network.globalStep_channels h hv ht, Network.channelsAfter, List.getElem?_map, hk]
    rfl
  exact ⟨_, more, _, hd, c.afterStep_producer i _ _, c.afterStep_consumer i _ _, rfl, hmore,
    Channel.queue_append_eq_afterStep _ hsplit, c.afterStep_emitted i _ _,
    fun _ htaken => Channel.afterStep_emitted_eq_taken _ hsplit htaken⟩

end Sys2Proof.Machine
end

section
/-! The jumps (R150 to R152): each is the shape `jumpResult` under its own condition, so the three ways that
shape can end, once its arguments resolve, are said once for both. -/

namespace Sys2Proof.Machine

/-! ### The three ends of an instruction whose meaning is a jump -/

theorem exec_of_jump_taken {i : Instr} {taken : Int → Bool} {c t : Operand} {s : State} {v1 v2 : Int}
    (hi : result i s = jumpResult taken c t s) (h1 : readArg s 1 c = .ok v1)
    (h2 : readArg s 2 t = .ok v2) (htaken : taken v1 = true) (hv : 0 ≤ v2) :
    exec i s = .next { s with pc := v2.toNat } := by
  rw [exec_eq_result, hi, jumpResult_of_args h1 h2, if_pos htaken, if_neg (not_lt.2 hv)]
  rfl

theorem exec_of_jump_fault {i : Instr} {taken : Int → Bool} {c t : Operand} {s : State} {v1 v2 : Int}
    (hi : result i s = jumpResult taken c t s) (h1 : readArg s 1 c = .ok v1)
    (h2 : readArg s 2 t = .ok v2) (htaken : taken v1 = true) (hv : v2 < 0) :
    exec i s = .next (s.takeFault (s.addressFault 2 v2)) := by
  rw [exec_eq_result, hi, jumpResult_of_args h1 h2, if_pos htaken, if_pos hv, StepResult.after_faulted]

/-- A jump that is not taken passes whatever the sign of its target (R152). -/
theorem exec_of_jump_passed {i : Instr} {taken : Int → Bool} {c t : Operand} {s : State} {v1 v2 : Int}
    (hi : result i s = jumpResult taken c t s) (h1 : readArg s 1 c = .ok v1)
    (h2 : readArg s 2 t = .ok v2) (htaken : ¬ taken v1 = true) :
    exec i s = .next { s with pc := s.pc + 3 } := by
  rw [exec_eq_result, hi, jumpResult_of_args h1 h2, if_neg htaken]
  rfl

/-! ### The instructions -/

/-- Settles O19: on any condition one of the two jumps is taken, and faults, and the other passes. -/
theorem takenJumpToNegativeTargetFaults : Obligations.TakenJumpToNegativeTargetFaults := by
  intro c t s v1 v2 h1 h2 hv
  refine ⟨fun hne => ⟨?_, ?_⟩, fun heq => ⟨?_, ?_⟩⟩
  · exact exec_of_jump_fault rfl h1 h2 ((condNonZero_iff v1).2 hne) hv
  · exact exec_of_jump_passed rfl h1 h2 (mt (condZero_iff v1).1 hne)
  · exact exec_of_jump_fault rfl h1 h2 ((condZero_iff v1).2 heq) hv
  · exact exec_of_jump_passed rfl h1 h2 (mt (condNonZero_iff v1).1 (not_not.2 heq))

/-- Settles O17: a jump-if-true is taken on exactly the non-zero conditions. -/
theorem jumpIfTrueJumpsOnNonZero : Obligations.JumpIfTrueJumpsOnNonZero := by
  refine fun c t s v1 v2 h1 h2 => ⟨fun hne hv => ?_, fun heq => ?_⟩
  · exact exec_of_jump_taken rfl h1 h2 ((condNonZero_iff v1).2 hne) hv
  · exact exec_of_jump_passed rfl h1 h2 (mt (condNonZero_iff v1).1 (not_not.2 heq))

/-- Settles O18: a jump-if-false is taken on exactly the condition 0. -/
theorem jumpIfFalseJumpsOnZero : Obligations.JumpIfFalseJumpsOnZero := by
  refine fun c t s v1 v2 h1 h2 => ⟨fun heq hv => ?_, fun hne => ?_⟩
  · exact exec_of_jump_taken rfl h1 h2 ((condZero_iff v1).2 heq) hv
  · exact exec_of_jump_passed rfl h1 h2 (mt (condZero_iff v1).1 hne)

end Sys2Proof.Machine
end

section
/-! The comparisons (R170 to R172): each is a store of the truth value of its comparison, and a truth value is
1 or 0. -/

namespace Sys2Proof.Machine

/-- Settles O12: less-than is the store of the truth value of `<`. -/
theorem lessThanStoresOneOrZero : Obligations.LessThanStoresOneOrZero := by
  intro a b dst s v1 v2 a3 h1 h2 h3
  rw [← lessThanValue_eq]
  exact exec_of_store (f := lessThanValue) rfl h1 h2 h3

/-- Settles O13: equals is the store of the truth value of `=`. -/
theorem equalsStoresOneOrZero : Obligations.EqualsStoresOneOrZero := by
  intro a b dst s v1 v2 a3 h1 h2 h3
  rw [← equalsValue_eq]
  exact exec_of_store (f := equalsValue) rfl h1 h2 h3

theorem truthValue_eq_one_or_zero (c : Bool) : truthValue c = 1 ∨ truthValue c = 0 := by
  cases c
  · exact .inr rfl
  · exact .inl rfl

/-- After a completed store the cell of argument 3 holds the operation's value of the two arguments. -/
theorem storeResult_completed_read {f : Int → Int → Int} {a b d : Operand} {s t : State}
    (h : storeResult f a b d s = .completed t) :
    ∃ v1 v2 a3, readArg s 1 a = .ok v1 ∧ readArg s 2 b = .ok v2 ∧ writeArg s 3 d = .ok a3 ∧
      t.mem.read a3 = f v1 v2 := by
  rcases storeResult_cases f a b d s with ⟨v1, v2, a3, h1, h2, h3, hr⟩ | ⟨r, -, hr⟩ <;>
    rw [hr] at h <;> cases h
  exact ⟨v1, v2, a3, h1, h2, h3, Memory.read_write_same s.mem a3 (f v1 v2)⟩

/-- Settles O14: a completed comparison has stored a truth value; for `equals x, #0` the value stored is
that of O13. -/
theorem comparisonsWriteOnlyOneOrZero : Obligations.ComparisonsWriteOnlyOneOrZero := by
  refine ⟨fun a b dst s t i hi h => ?_, fun x dst s v a3 hx hdst => ?_⟩
  · obtain ⟨p, hstore⟩ : ∃ p : Int → Int → Bool,
        storeResult (fun v1 v2 => truthValue (p v1 v2)) a b dst s = .completed t := by
      rcases hi with rfl | rfl
      · exact ⟨fun v1 v2 => decide (v1 < v2), h⟩
      · exact ⟨fun v1 v2 => decide (v1 = v2), h⟩
    obtain ⟨v1, v2, a3, -, -, h3, hread⟩ := storeResult_completed_read hstore
    exact ⟨a3, h3, hread ▸ truthValue_eq_one_or_zero (p v1 v2)⟩
  · have hzero : readArg s 2 { mode := .immediate, literal := 0 } = .ok 0 := readArg_immediate 2 rfl
    exact ⟨_, equalsStoresOneOrZero x _ dst s v 0 a3 hx hzero hdst, Memory.read_write_same s.mem a3 _⟩

end Sys2Proof.Machine
end

section
/-! adjust-rb and halt (R190 to R192): an adjust-rb is the only instruction that writes `rb`, and a halt the
last one its machine executes. -/

namespace Sys2Proof.Machine

/-! ### adjust-rb -/

theorem result_adjustRb_of_readArg {a : Operand} {s : State} {v : Int} (hv : readArg s 1 a = .ok v) :
    result (.adjustRb a) s = .completed ((s.addRb v).advance 2) := by
  simp only [result, adjustRbResult, hv]

/-- Settles O20: where its argument resolves, an adjust-rb completes. -/
theorem adjustRbAddsTheValue : Obligations.AdjustRbAddsTheValue := by
  intro a s v hv
  rw [exec_eq_result, result_adjustRb_of_readArg hv]
  rfl

/-! ### The changes of `rb` -/

/-- An instruction that completes with another `rb` is an adjust-rb, and has added its value. -/
theorem CompletionOf.adjusted_of_rb_ne {s t : State} {i : Instr} (h : CompletionOf s i t)
    (hne : t.rb ≠ s.rb) :
    ∃ a v, i = .adjustRb a ∧ readArg s 1 a = .ok v ∧ t.rb = s.rb + v := by
  cases h with
  | adjusted hv => exact ⟨_, _, rfl, hv, rfl⟩
  | stored | consumed | emitted | jumpedIfTrue | jumpedIfFalse | halted => exact absurd rfl hne

/-- A step that changes `rb` completes: a fault, a suspension and the step of a stopped machine leave `rb`
as it was. -/
theorem attempt_completed_of_rb_ne {s t : State} (h : step s = .next t) (hne : t.rb ≠ s.rb) :
    attempt s = .completed t := by
  by_cases hs : s.status = .running
  · rw [step_running hs] at h
    cases h
    cases ha : attempt s with
    | completed u => rfl
    | faulted f => simp [ha] at hne
    | suspended r => simp [ha] at hne
  · rw [step_stopped hs] at h
    cases h
    exact absurd rfl hne

theorem State.afterHostOp_rb (s : State) (op : HostOp) : (s.afterHostOp op).rb = s.rb := by
  rcases s.afterHostOp_cases op with h | ⟨a, v, h⟩ | ⟨v, h⟩ | ⟨v, rest, -, h⟩ <;> rw [h] <;> rfl

/-- Settles O41: a step that changes `rb` completes the instruction it fetched, and among the completed
instructions only an adjust-rb changes `rb`. -/
theorem rbIsPurelyAdditive : Obligations.RbIsPurelyAdditive := by
  refine ⟨fun s t h hne => ?_, fun s a v hs hfetch hv => ?_, State.afterHostOp_rb, fun _ _ _ => rfl⟩
  · obtain ⟨i, hfetch, hc⟩ := attempt_completed (attempt_completed_of_rb_ne h hne)
    obtain ⟨a, v, rfl, hv, hrb⟩ := hc.adjusted_of_rb_ne hne
    exact ⟨a, v, hfetch, hv, hrb⟩
  · exact ⟨_, (step_of_fetch hs hfetch).trans (adjustRbAddsTheValue a s v hv), rfl⟩

/-! ### halt -/

/-- A halt has no arguments, so every digit above its opcode is ignored (R191). -/
theorem decode_halt (m : Nat) (lit : Nat → Int) : decode ((99 + 100 * m : Nat) : Int) lit = .ok .halt :=
  calc decode ((99 + 100 * m : Nat) : Int) lit
    _ = decode ((99 : Nat) : Int) lit := undecodedDigitsAreIgnored.1 99 m .halt lit rfl
    _ = .ok .halt := decode_word (i := .halt) rfl nofun

theorem State.runEnd?_of_halted {s : State} (h : s.status = .halted) : s.runEnd? = some .halted := by
  simp only [State.runEnd?, h]

/-- Settles O21: a halt is `State.stop` in every state; a Halted machine's step answers the same state, and
its run is at its end under every budget. -/
theorem haltStopsTheMachine : Obligations.HaltStopsTheMachine := by
  refine ⟨fun _ => rfl, rfl, decode_halt, fun s h => ⟨step_stopped (by simp [h]), fun budget => ?_⟩⟩
  exact run_of_runEnd (State.runEnd?_of_halted h) budget

end Sys2Proof.Machine
end

section
/-! The run (R210, R225, R233, R235): when an outcome is due, how `run` goes on where none is, and what the
outcome says of the end. -/

namespace Sys2Proof.Machine

/-! ### A step has a next state -/

theorem exists_step_eq (s : State) : ∃ t, step s = .next t := by
  by_cases hs : s.status = .running
  · exact ⟨_, step_running hs⟩
  · exact ⟨s, step_stopped hs⟩

/-- Settles O38: the step of a Running machine answers what its attempt leaves, that of a stopped one the same
state. -/
theorem everyStepAnswersAState : Obligations.EveryStepAnswersAState :=
  exists_step_eq

/-! ### When an outcome is due -/

theorem State.runEnd?_of_running {s : State} (h : s.status = .running) :
    s.runEnd? = (suspension s).map RunOutcome.suspended := by
  simp only [State.runEnd?, h]

theorem State.runEnd?_of_faulted {s : State} {f : FaultRecord} (h : s.status = .faulted f) :
    s.runEnd? = some (.faulted f.kind) := by
  simp only [State.runEnd?, h]

theorem State.runEnd?_of_suspension {s : State} {r : SuspendReason} (h : suspension s = some r) :
    s.runEnd? = some (.suspended r) := by
  rw [State.runEnd?_of_running (suspension_eq_some.1 h).1, h]
  rfl

theorem State.runEnd?_eq_none_iff {s : State} :
    s.runEnd? = none ↔ s.status = .running ∧ suspension s = none := by
  cases hs : s.status with
  | running => simp [State.runEnd?_of_running hs]
  | halted => simp [State.runEnd?_of_halted hs]
  | faulted f => simp [State.runEnd?_of_faulted hs]

/-- The three outcomes, each with the state in which it is due (R210). -/
theorem State.runEnd?_eq_some {s : State} {o : RunOutcome} (h : s.runEnd? = some o) :
    (o = .halted ∧ s.status = .halted) ∨ (∃ f, o = .faulted f.kind ∧ s.status = .faulted f) ∨
      ∃ r, o = .suspended r ∧ suspension s = some r := by
  cases hs : s.status with
  | running =>
    rw [State.runEnd?_of_running hs] at h
    obtain ⟨r, hr, rfl⟩ := Option.map_eq_some_iff.1 h
    exact .inr (.inr ⟨r, rfl, hr⟩)
  | halted =>
    rw [State.runEnd?_of_halted hs] at h
    cases h
    exact .inl ⟨rfl, rfl⟩
  | faulted f =>
    rw [State.runEnd?_of_faulted hs] at h
    cases h
    exact .inr (.inl ⟨f, rfl, rfl⟩)

/-! ### The recursion of `run` -/

@[simp] theorem run_zero (s : State) : run 0 s = (s.runEnd?, s) := rfl

/-- Where no outcome is due, `run` executes the step and goes on. -/
theorem run_succ_of_step {s t : State} (budget : Nat) (h : s.runEnd? = none) (ht : step s = .next t) :
    run (budget + 1) s = run budget t := by
  simp only [run, h, ht]

/-- The outcome of a run, if it has one, is the one due in the state it ends in. -/
theorem runEnd?_of_run {budget : Nat} {s t : State} {o : RunOutcome}
    (h : run budget s = (some o, t)) : t.runEnd? = some o := by
  induction budget generalizing s with
  | zero =>
    obtain ⟨hend, rfl⟩ : s.runEnd? = some o ∧ s = t := by simpa using h
    exact hend
  | succ budget ih =>
    cases hend : s.runEnd? with
    | some o' => rw [run_of_runEnd hend] at h; cases h; exact hend
    | none =>
      obtain ⟨u, hu⟩ := exists_step_eq s
      exact ih (run_succ_of_step budget hend hu ▸ h)

/-- A run goes on from the state in which a smaller budget stopped it. -/
theorem run_add {budget : Nat} {s t : State} {o : Option RunOutcome} (more : Nat)
    (h : run budget s = (o, t)) : run (budget + more) s = run more t := by
  induction budget generalizing s with
  | zero => cases h; rw [Nat.zero_add]
  | succ budget ih =>
    cases hend : s.runEnd? with
    | some o' => rw [run_of_runEnd hend] at h; cases h; simp only [run_of_runEnd hend]
    | none =>
      obtain ⟨u, hu⟩ := exists_step_eq s
      rw [Nat.add_right_comm, run_succ_of_step _ hend hu]
      exact ih (run_succ_of_step budget hend hu ▸ h)

/-- Settles O53: the outcome is the one due where the run ends, and there it is due under every budget. -/
theorem runOutcomeDescribesTheEnd : Obligations.RunOutcomeDescribesTheEnd := by
  intro budget s t o h
  have hend := runEnd?_of_run h
  have hagain : ∀ again, run again t = (some o, t) := run_of_runEnd hend
  rcases State.runEnd?_eq_some hend with ⟨rfl, hs⟩ | ⟨f, rfl, hs⟩ | ⟨r, rfl, hr⟩
  · exact ⟨fun _ => hs, nofun, nofun, hagain⟩
  · refine ⟨nofun, fun k hk => ?_, nofun, hagain⟩
    cases hk
    exact ⟨f, hs, rfl⟩
  · refine ⟨nofun, nofun, fun r' hr' => ?_, hagain⟩
    cases hr'
    exact ⟨(suspension_eq_some.1 hr).1, hr⟩

/-- Settles O54: by the recursion of `run`; where an outcome is due, going on changes nothing. -/
theorem runBudgetIsNoOutcome : Obligations.RunBudgetIsNoOutcome := by
  refine ⟨fun _ => State.runEnd?_eq_none_iff, fun budget _ _ h => run_of_runEnd h budget,
    fun s h => by rw [run_zero, h], fun budget _ _ h ht => run_succ_of_step budget h ht,
    fun budget more s t o h => ?_, fun _ more _ _ h => run_add more h⟩
  rw [run_add more h, run_of_runEnd (runEnd?_of_run h)]

end Sys2Proof.Machine
end

section
/-! Faults and stopped machines (R211 to R216, R222, R225): which record a fault leaves, and that nothing else
of the state changes, then or later. -/

namespace Sys2Proof.Machine

/-! ### Immediate write targets (R69, R215) -/

/-- The opcodes with a write argument by their numbers; it is their last argument (R65). -/
theorem exists_opcode_of_writePosition {n k : Nat} (h : n ∈ [1, 2, 7, 8] ∧ k = 3 ∨ n = 3 ∧ k = 1) :
    ∃ op, Opcode.ofNumber? n = some op ∧ op.writePosition? = some k ∧ op.arity = k := by
  rcases h with ⟨hn, rfl⟩ | ⟨rfl, rfl⟩
  · fin_cases hn <;> exact ⟨_, rfl, rfl, rfl⟩
  · exact ⟨_, rfl, rfl, rfl⟩

/-- Settles O26: such a word is rejected by that name, and the fault records the name. -/
theorem immediateWriteTargetFaults : Obligations.ImmediateWriteTargetFaults := by
  rintro s _ _ k hs rfl h0 rfl hop hmodes himm
  obtain ⟨op, hnum, hwrite, harity⟩ := exists_opcode_of_writePosition hop
  refine step_of_decode_error hs (decode_invalidWriteTarget_iff.2 ⟨h0, op, hnum, hwrite, ?_, himm⟩)
  rw [exists_decodeModes_ok_iff, harity]
  exact hmodes

/-! ### The record of a fault (R212, R216) -/

theorem FaultOf.word_eq {i : Instr} {s : State} {f : FaultRecord} (h : FaultOf i s f) :
    f.word = s.mem.read s.pc := by
  cases h <;> rfl

theorem FaultOf.kind_ne_immediate {i : Instr} {s : State} {f : FaultRecord} (h : FaultOf i s f) :
    f.kind ≠ .immediateAddressFault := by
  cases h <;> simp

@[simp] theorem State.decodeErrorFault_word (s : State) (e : DecodeError) :
    (s.decodeErrorFault e).word = s.mem.read s.pc := by
  cases e <;> rfl

theorem result_faulted {i : Instr} {s : State} {f : FaultRecord} (h : result i s = .faulted f) :
    FaultOf i s f := by
  have hr := result_cases i s
  rw [h] at hr
  cases hr with
  | faulted hf => exact hf

theorem attempt_faulted_word {s : State} {f : FaultRecord} (h : attempt s = .faulted f) :
    f.word = s.mem.read s.pc := by
  rcases attempt_cases s with ⟨i, -, hi, -⟩ | ⟨e, -, he⟩
  · exact (result_faulted (hi ▸ h)).word_eq
  · rw [he] at h
    cases h
    exact s.decodeErrorFault_word e

theorem FaultRecord.consistent.kind_ne_immediate {f : FaultRecord} (h : f.consistent) :
    f.kind ≠ .immediateAddressFault := by
  intro hk
  simp [FaultRecord.consistent, hk] at h

/-- Settles O28: an instruction has no such fault among those it can raise, and the record of a step's fault is
consistent, which one of that kind never is. -/
theorem immediateAddressFaultIsNeverRaised : Obligations.ImmediateAddressFaultIsNeverRaised :=
  ⟨fun _ _ _ h => (result_faulted h).kind_ne_immediate,
    fun _ _ h => (attempt_faulted_consistent h).1.kind_ne_immediate⟩

/-! ### A fault commits nothing (R214, R222) -/

/-- An attempt that faults does not suspend, so no outcome is due before it. -/
theorem runEnd?_of_attempt_faulted {s : State} {f : FaultRecord} (hs : s.status = .running)
    (h : attempt s = .faulted f) : s.runEnd? = none := by
  simp [State.runEnd?_eq_none_iff, suspension, hs, h]

/-- Settles O27: the step leaves `takeFault` of the attempt's record, in which the run's outcome is due. -/
theorem faultCommitsNothing : Obligations.FaultCommitsNothing := by
  intro s t f hs ht hf
  have ha : attempt s = .faulted f := (step_faulted_iff hs ht f).1 hf
  obtain ⟨hcons, hpc⟩ := attempt_faulted_consistent ha
  refine ⟨?_, hpc, attempt_faulted_word ha, hcons, fun budget => ?_⟩
  · rw [step_running hs, ha] at ht
    cases ht
    rfl
  · rw [run_succ_of_step budget (runEnd?_of_attempt_faulted hs ha) ht]
    exact run_of_runEnd (State.runEnd?_of_faulted hf) budget

/-! ### A stopped machine stays stopped (R225) -/

/-- Settles O29: a stopped machine's step changes nothing and its outcome is due at once; no host operation
writes `status`. -/
theorem stoppedMachineStaysStopped : Obligations.StoppedMachineStaysStopped := by
  refine fun s => ⟨fun h => ⟨step_stopped (by simp [h]), ?_⟩, fun f h => ⟨step_stopped (by simp [h]), ?_⟩,
    s.afterHostOp_status⟩
  · exact run_of_runEnd (State.runEnd?_of_halted h)
  · exact run_of_runEnd (State.runEnd?_of_faulted h)

end Sys2Proof.Machine
end

section
/-! Suspension (R218 to R220): exactly when a step waits, and that it leaves everything as it was. -/

namespace Sys2Proof.Machine

theorem result_input_of_empty {d : Operand} {s : State} {a1 : Nat} (ha : writeArg s 1 d = .ok a1)
    (hq : s.inq = []) : result (.input d) s = .suspended .inputStarvation := by
  simp only [result, inputResult, ha, hq]

theorem result_output_of_full {a : Operand} {s : State} {v : Int} (hv : readArg s 1 a = .ok v)
    (hfull : s.outputFull = true) : result (.output a) s = .suspended .outputBackpressure := by
  simp only [result, outputResult, hv, hfull, if_true]

/-- A channel is full when it has a capacity and holds as many values or more (R131). -/
theorem State.outputFull_iff (s : State) :
    s.outputFull = true ↔ ∃ c, s.config.outCap = some c ∧ c ≤ s.outq.length := by
  rw [s.outputFull_eq_any]
  simp [Option.any_eq_true]

theorem attempt_starved_iff {s : State} :
    attempt s = .suspended .inputStarvation ↔
      s.inq = [] ∧ ∃ d a1, s.fetch = .ok (.input d) ∧ writeArg s 1 d = .ok a1 := by
  constructor
  · intro h
    rcases attempt_suspended h with ⟨-, hwait⟩ | ⟨hr, -⟩
    · exact hwait
    · cases hr
  · rintro ⟨hq, d, a1, hfetch, ha⟩
    rw [attempt_of_fetch hfetch, result_input_of_empty ha hq]

theorem attempt_blocked_iff {s : State} :
    attempt s = .suspended .outputBackpressure ↔
      s.outputFull = true ∧ ∃ a v, s.fetch = .ok (.output a) ∧ readArg s 1 a = .ok v := by
  constructor
  · intro h
    rcases attempt_suspended h with ⟨hr, -⟩ | ⟨-, hwait⟩
    · cases hr
    · exact hwait
  · rintro ⟨hfull, a, v, hfetch, hv⟩
    rw [attempt_of_fetch hfetch, result_output_of_full hv hfull]

/-- Settles O30: a suspension is the attempt of a Running machine, and this one is an input's. -/
theorem starvesExactlyOnEmptyInput : Obligations.StarvesExactlyOnEmptyInput := by
  intro s
  rw [suspension_eq_some, attempt_starved_iff]

/-- Settles O31: a suspension is the attempt of a Running machine, and this one is an output's; without a
capacity the channel is never full. -/
theorem blocksExactlyOnFullOutput : Obligations.BlocksExactlyOnFullOutput := by
  intro s
  have hiff := @suspension_eq_some s .outputBackpressure
  rw [attempt_blocked_iff, s.outputFull_iff] at hiff
  refine ⟨hiff, fun hnone h => ?_⟩
  obtain ⟨-, ⟨c, hc, -⟩, -⟩ := hiff.1 h
  rw [hnone] at hc
  cases hc

/-- Settles O32: the step of a machine that waits answers the same state, and the outcome is due at once. -/
theorem suspensionChangesNothing : Obligations.SuspensionChangesNothing :=
  fun _ _ h => ⟨step_suspended h, (suspension_eq_some.1 h).1,
    run_of_runEnd (State.runEnd?_of_suspension h)⟩

end Sys2Proof.Machine
end

section
/-! Global steps of different machines (R236, R237, R239 to R241): what one leaves of the others, that two of
them commute, and what follows for schedules and for networks in which none is left. -/

namespace Sys2Proof.Machine

/-! ### A global step by its machine's own step -/

/-- Machine `i`, kept as `m`, as it takes its steps: with the queues of its channels. -/
def Network.viewOf (n : Network) (i : Nat) (m : State) : State :=
  { m with inq := n.inQueue i m, outq := n.outQueue i m }

/-- The network once the step of machine `i`, kept as `m`, has led its view to `t`. -/
def Network.afterStep (n : Network) (i : Nat) (m t : State) : Network :=
  { machines := n.machines.set i (n.kept i m t)
    channels := n.channelsAfter i t.inq (emittedBetween (n.viewOf i m) t) }

/-- Machine `i` is kept as `m`, and its view can step, to `t`. -/
structure Network.MachineStep (n : Network) (i : Nat) (m t : State) : Prop where
  machine : n.machines[i]? = some m
  canStep : (n.viewOf i m).canStep = true
  step    : step (n.viewOf i m) = .next t

theorem Network.globalStep_iff_machineStep {n n' : Network} {i : Nat} :
    n.globalStep i = some n' ↔ ∃ m t, n.MachineStep i m t ∧ n' = n.afterStep i m t := by
  rw [Network.globalStep_eq_some]
  constructor
  · rintro ⟨m, v, t, hm, rfl, hc, ht, rfl⟩
    exact ⟨m, t, ⟨hm, hc, ht⟩, rfl⟩
  · rintro ⟨m, t, ⟨hm, hc, ht⟩, rfl⟩
    exact ⟨m, _, t, hm, rfl, hc, ht, rfl⟩

theorem Network.afterStep_machine_ne {n : Network} {i j : Nat} (m t : State) (h : j ≠ i) :
    (n.afterStep i m t).machines[j]? = n.machines[j]? :=
  List.getElem?_set_ne h.symm

/-! ### What a global step leaves alone (R236, R237) -/

theorem Channel.afterStep_of_foreign {c : Channel} {i : Nat} (q w : List Int) (hp : c.producer ≠ i)
    (hc : c.consumer ≠ i) : c.afterStep i q w = c := by
  simp [Channel.afterStep, hp, hc]

/-- Settles O57: one entry of the machines is set, and every channel is mapped to itself unless machine `i` is
at one of its ends. -/
theorem globalStepTouchesOnlyItsMachine : Obligations.GlobalStepTouchesOnlyItsMachine := by
  intro n n' i h
  obtain ⟨m, t, -, rfl⟩ := Network.globalStep_iff_machineStep.1 h
  refine ⟨fun j => Network.afterStep_machine_ne m t, fun k c hk hp hc => ?_, List.length_set,
    List.length_map _⟩
  simp only [Network.afterStep, Network.channelsAfter, List.getElem?_map, hk, Option.map_some,
    Channel.afterStep_of_foreign _ _ hp hc]

/-! ### What a global step does to the view of another machine (R241) -/

/-- The values that arrive at machine `j`'s input when machine `i` emits `w`. -/
def Network.arrivals (n : Network) (i j : Nat) (w : List Int) : List Int :=
  match n.inChannel? j with
  | none => []
  | some c => if c.producer = i then w else []

theorem Network.inQueue_afterStep {n : Network} {i j : Nat} (mi t mj : State) (hij : i ≠ j) :
    (n.afterStep i mi t).inQueue j mj =
      n.inQueue j mj ++ n.arrivals i j (emittedBetween (n.viewOf i mi) t) := by
  simp only [Network.inQueue, Network.arrivals, Network.afterStep, Network.inChannel?_after]
  cases hc : n.inChannel? j with
  | none => simp
  | some c =>
    obtain ⟨-, rfl⟩ := Network.inChannel?_spec hc
    simp [Channel.afterStep_queue, hij.symm]

theorem Network.outQueue_afterStep_of_none {n : Network} {i j : Nat} (mi t mj : State)
    (h : n.outChannel? j = none) : (n.afterStep i mi t).outQueue j mj = n.outQueue j mj := by
  simp only [Network.outQueue, Network.afterStep, Network.outChannel?_after, h, Option.map_none]

/-- Another machine's step takes values from a queue that machine `j` produces into, but puts none there. -/
theorem Network.length_outQueue_afterStep_le {n : Network} {i j : Nat} {mi t : State} (mj : State)
    (hw : n.wired = true) (hij : i ≠ j) (h : n.MachineStep i mi t) :
    ((n.afterStep i mi t).outQueue j mj).length ≤ (n.outQueue j mj).length := by
  cases hc : n.outChannel? j with
  | none => rw [Network.outQueue_afterStep_of_none mi t mj hc]
  | some c =>
    obtain ⟨hmem, rfl⟩ := Network.outChannel?_spec hc
    simp only [Network.outQueue, Network.afterStep, Network.outChannel?_after, hc, Option.map_some,
      Channel.afterStep_queue, if_neg hij.symm, List.append_nil]
    split
    · next hi =>
      subst hi
      have hinq : (n.viewOf c.consumer mi).inq = c.queue :=
        Network.view?_inq hw hmem (Network.view?_eq_some.2 ⟨mi, h.machine, rfl⟩)
      obtain ⟨⟨consumed, hq⟩, -⟩ := step_queues h.step
      rw [← hinq, hq, List.length_append]
      exact Nat.le_add_left _ _
    · exact le_refl _

/-- To machine `j`, a global step of another machine is no more than values more at the end of `inq` and a
shorter `outq`. -/
theorem Network.viewOf_afterStep {n : Network} {i j : Nat} (mi t mj : State) (hij : i ≠ j) :
    (n.afterStep i mi t).viewOf j mj =
      (n.viewOf j mj).withQueues (n.arrivals i j (emittedBetween (n.viewOf i mi) t))
        ((n.afterStep i mi t).outQueue j mj) := by
  simp only [Network.viewOf, State.withQueues, Network.inQueue_afterStep mi t mj hij]

/-! ### Two global steps commute -/

/-- The state to which machine `j`'s step leads after that of machine `i`, where without it it leads to
`tj`. -/
def Network.stepAfter (n : Network) (i : Nat) (mi ti : State) (j : Nat) (mj tj : State) : State :=
  { tj with
    inq := tj.inq ++ n.arrivals i j (emittedBetween (n.viewOf i mi) ti)
    outq := (n.afterStep i mi ti).outQueue j mj ++ emittedBetween (n.viewOf j mj) tj }

/-- The step of one machine does not disable that of another, and leads it on as before. -/
theorem Network.MachineStep.after {n : Network} {i j : Nat} {mi ti mj tj : State} (hw : n.wired = true)
    (hij : i ≠ j) (hi : n.MachineStep i mi ti) (hj : n.MachineStep j mj tj) :
    (n.afterStep i mi ti).MachineStep j mj (n.stepAfter i mi ti j mj tj) := by
  obtain ⟨hc, ht⟩ := step_withQueues (n.arrivals i j (emittedBetween (n.viewOf i mi) ti))
    ((n.afterStep i mi ti).outQueue j mj) hj.canStep hj.step
    (Network.length_outQueue_afterStep_le mj hw hij hi)
  rw [← Network.viewOf_afterStep mi ti mj hij] at hc ht
  exact ⟨(Network.afterStep_machine_ne mi ti hij.symm).trans hj.machine, hc, ht⟩

/-- The second step emits what it emits without the first. -/
theorem Network.emittedBetween_stepAfter (n : Network) (i : Nat) (mi ti : State) (j : Nat) (mj tj : State) :
    emittedBetween ((n.afterStep i mi ti).viewOf j mj) (n.stepAfter i mi ti j mj tj) =
      emittedBetween (n.viewOf j mj) tj :=
  List.drop_left

theorem Network.stepAfter_inq_of_none {n : Network} {i j : Nat} (mi ti mj tj : State)
    (h : n.inChannel? j = none) : (n.stepAfter i mi ti j mj tj).inq = tj.inq := by
  simp only [Network.stepAfter, Network.arrivals, h, List.append_nil]

theorem Network.stepAfter_outq_of_none {n : Network} {i j : Nat} {mj tj : State} (mi ti : State)
    (hj : n.MachineStep j mj tj) (h : n.outChannel? j = none) :
    (n.stepAfter i mi ti j mj tj).outq = tj.outq := by
  rw [(step_queues hj.step).2, Network.stepAfter, Network.outQueue_afterStep_of_none mi ti mj h]
  rfl

/-- Machine `j` is kept as it is without the first step: where a queue of its own is no channel's, the first
step did not change it. -/
theorem Network.kept_stepAfter {n : Network} {i j : Nat} {mi ti mj tj : State}
    (hj : n.MachineStep j mj tj) :
    (n.afterStep i mi ti).kept j mj (n.stepAfter i mi ti j mj tj) = n.kept j mj tj := by
  have hin : (n.afterStep i mi ti).inChannel? j = (n.inChannel? j).map _ :=
    Network.inChannel?_after ..
  have hout : (n.afterStep i mi ti).outChannel? j = (n.outChannel? j).map _ :=
    Network.outChannel?_after ..
  refine State.ext_fields rfl rfl rfl rfl ?_ ?_ rfl
  · simp only [Network.kept, hin]
    cases hc : n.inChannel? j with
    | none => exact Network.stepAfter_inq_of_none mi ti mj tj hc
    | some c => rfl
  · simp only [Network.kept, hout]
    cases hc : n.outChannel? j with
    | none => exact Network.stepAfter_outq_of_none mi ti hj hc
    | some c => rfl

theorem Channel.afterStep_eq (c : Channel) (i : Nat) (q w : List Int) :
    c.afterStep i q w = { c with
      queue := (if c.consumer = i then q else c.queue) ++ if c.producer = i then w else []
      emitted := c.emitted ++ if c.producer = i then w else [] } := by
  unfold Channel.afterStep
  dsimp only
  split <;> simp

/-- Of two machines at most one produces into a channel, so the order of their appends is no matter. -/
theorem Channel.append_emitted_comm (c : Channel) {i j : Nat} (l wi wj : List Int) (hij : i ≠ j) :
    (l ++ if c.producer = i then wi else []) ++ (if c.producer = j then wj else []) =
      (l ++ if c.producer = j then wj else []) ++ if c.producer = i then wi else [] := by
  by_cases hi : c.producer = i
  · simp [mt hi.symm.trans hij]
  · simp [hi]

theorem Network.arrivals_of_mem {n : Network} {c : Channel} (hw : n.wired = true) (hc : c ∈ n.channels)
    (i : Nat) (w : List Int) :
    n.arrivals i c.consumer w = if c.producer = i then w else [] := by
  simp only [Network.arrivals, Network.inChannel?_of_mem hw hc]

/-- A channel loses at its front to its consumer and gains at its end from its producer, in either order. -/
theorem Network.channel_afterStep_comm {n : Network} {c : Channel} {i j : Nat} (qi qj wi wj : List Int)
    (hw : n.wired = true) (hc : c ∈ n.channels) (hij : i ≠ j) :
    (c.afterStep i qi wi).afterStep j (qj ++ n.arrivals i j wi) wj =
      (c.afterStep j qj wj).afterStep i (qi ++ n.arrivals j i wj) wi := by
  have hcomm := fun l => c.append_emitted_comm l wi wj hij
  simp only [Channel.afterStep_eq, hcomm]
  congr 1
  by_cases hi : c.consumer = i
  · subst hi
    simp only [if_neg hij, if_true, Network.arrivals_of_mem hw hc, hcomm]
  · by_cases hj : c.consumer = j
    · subst hj
      simp only [if_neg hij.symm, if_true, Network.arrivals_of_mem hw hc, hcomm]
    · simp only [if_neg hi, if_neg hj, hcomm]

/-- What two global steps leave: each machine as its own step alone leaves it, each channel after both. -/
theorem Network.afterStep_afterStep {n : Network} {i j : Nat} {mi ti mj tj : State}
    (hj : n.MachineStep j mj tj) :
    (n.afterStep i mi ti).afterStep j mj (n.stepAfter i mi ti j mj tj) =
      { machines := (n.machines.set i (n.kept i mi ti)).set j (n.kept j mj tj)
        channels := n.channels.map fun c =>
          (c.afterStep i ti.inq (emittedBetween (n.viewOf i mi) ti)).afterStep j
            (tj.inq ++ n.arrivals i j (emittedBetween (n.viewOf i mi) ti))
            (emittedBetween (n.viewOf j mj) tj) } := by
  rw [Network.afterStep, Network.kept_stepAfter hj, Network.emittedBetween_stepAfter]
  simp only [Network.channelsAfter, Network.afterStep, List.map_map]
  rfl

theorem Network.afterStep_comm {n : Network} {i j : Nat} {mi ti mj tj : State} (hw : n.wired = true)
    (hij : i ≠ j) (hi : n.MachineStep i mi ti) (hj : n.MachineStep j mj tj) :
    (n.afterStep i mi ti).afterStep j mj (n.stepAfter i mi ti j mj tj) =
      (n.afterStep j mj tj).afterStep i mi (n.stepAfter j mj tj i mi ti) := by
  rw [Network.afterStep_afterStep hj, Network.afterStep_afterStep hi, List.set_comm _ _ hij]
  congr 1
  exact List.map_congr_left fun c hc => Network.channel_afterStep_comm _ _ _ _ hw hc hij

/-- Settles O55: to each of the two machines the other's step is more values waiting and fewer in the way, and
every channel has one producer and one consumer. -/
theorem globalStepsCommute : Obligations.GlobalStepsCommute := by
  intro n n1 n2 i j hw hij h1 h2
  obtain ⟨mi, ti, hi, rfl⟩ := Network.globalStep_iff_machineStep.1 h1
  obtain ⟨mj, tj, hj, rfl⟩ := Network.globalStep_iff_machineStep.1 h2
  refine ⟨_, Network.globalStep_iff_machineStep.2 ⟨mj, _, hi.after hw hij hj, rfl⟩,
    Network.globalStep_iff_machineStep.2 ⟨mi, _, hj.after hw hij.symm hi, ?_⟩⟩
  exact Network.afterStep_comm hw hij hi hj

/-! ### Networks in which no machine can step (R240, R241) -/

theorem Network.globalStep_eq_none_iff {n : Network} {i : Nat} :
    n.globalStep i = none ↔ n.canStep i = false := by
  rw [← not_iff_not, ← ne_eq, Option.ne_none_iff_exists', Network.exists_globalStep_iff,
    Bool.not_eq_false, Network.canStep]
  cases n.view? i <;> simp

theorem Network.stuck_iff {n : Network} : n.stuck = true ↔ ∀ i, n.globalStep i = none := by
  simp only [Network.stuck, List.all_eq_true, List.mem_range, Bool.not_eq_true',
    Network.globalStep_eq_none_iff]
  refine ⟨fun h i => ?_, fun h i _ => h i⟩
  by_cases hi : i < n.machines.length
  · exact h i hi
  · simp [Network.canStep, Network.view?, List.getElem?_eq_none (not_lt.1 hi)]

theorem Network.deadlocked_iff {n : Network} :
    n.deadlocked = true ↔ n.stuck = true ∧ ∃ m ∈ n.machines, m.status = .running := by
  simp [Network.deadlocked]

theorem Network.runSchedule_cons {n n' : Network} {i : Nat} {rest : List Nat} :
    n.runSchedule (i :: rest) = some n' ↔
      ∃ n1, n.globalStep i = some n1 ∧ n1.runSchedule rest = some n' := by
  simp only [Network.runSchedule]
  cases n.globalStep i <;> simp

/-- Where no machine can step only the empty schedule runs. -/
theorem Network.runSchedule_of_stuck {n n' : Network} {schedule : List Nat} (hs : n.stuck = true)
    (h : n.runSchedule schedule = some n') : schedule = [] ∧ n' = n := by
  cases schedule with
  | nil => cases h; exact ⟨rfl, rfl⟩
  | cons i rest =>
    obtain ⟨n1, h1, -⟩ := Network.runSchedule_cons.1 h
    rw [Network.stuck_iff.1 hs i] at h1
    cases h1

/-- A Running machine whose view cannot step is suspended. -/
theorem Network.exists_suspension {n : Network} {i : Nat} {m : State} (hs : n.globalStep i = none)
    (hm : n.machines[i]? = some m) (hrun : m.status = .running) :
    ∃ v r, n.view? i = some v ∧ suspension v = some r := by
  have hv : n.view? i = some (n.viewOf i m) := Network.view?_eq_some.2 ⟨m, hm, rfl⟩
  cases hr : suspension (n.viewOf i m) with
  | some r => exact ⟨_, r, hv, hr⟩
  | none =>
    obtain ⟨n', hn'⟩ := Network.exists_globalStep_iff.2 ⟨_, hv, State.canStep_iff_suspension.2 ⟨hrun, hr⟩⟩
    rw [hs] at hn'
    cases hn'

/-- Settles O59: deadlock is being stuck with a Running machine left. -/
theorem deadlockedNetworkWaits : Obligations.DeadlockedNetworkWaits := by
  intro n
  refine ⟨by rw [Network.deadlocked_iff, Network.stuck_iff], fun h schedule n' hrun => ?_,
    fun h i m hm hrun => ?_⟩
  · exact Network.runSchedule_of_stuck (Network.deadlocked_iff.1 h).1 hrun
  · exact Network.exists_suspension (Network.stuck_iff.1 (Network.deadlocked_iff.1 h).1 i) hm hrun

/-! ### Confluence (R241) -/

/-- A schedule that leads to where no machine can step lets every machine that can step do so, and may as well
let it step first. -/
theorem Network.runSchedule_step_first {n n' n1 : Network} {i : Nat} {schedule : List Nat}
    (hw : n.wired = true) (hi : n.globalStep i = some n1) (h : n.runSchedule schedule = some n')
    (hs : n'.stuck = true) :
    ∃ rest, n1.runSchedule rest = some n' ∧ schedule.length = rest.length + 1 := by
  induction schedule generalizing n n1 with
  | nil =>
    cases h
    rw [Network.stuck_iff.1 hs i] at hi
    cases hi
  | cons j rest ih =>
    obtain ⟨n2, hj, hrest⟩ := Network.runSchedule_cons.1 h
    by_cases hij : i = j
    · subst hij
      rw [hi] at hj
      cases hj
      exact ⟨rest, hrest, rfl⟩
    · obtain ⟨m, h1, h2⟩ := globalStepsCommute n n1 n2 i j hw hij hi hj
      obtain ⟨rest', hrest', hlen⟩ := ih (Network.wired_globalStep hw hj) h2 hrest
      exact ⟨j :: rest', Network.runSchedule_cons.2 ⟨m, h1, hrest'⟩, congrArg (· + 1) hlen⟩

/-- Settles O56: by induction on the first schedule, whose first step the second may as well take first. -/
theorem stuckNetworkIsIndependentOfTheSchedule :
    Obligations.StuckNetworkIsIndependentOfTheSchedule := by
  intro n n1 n2 first second hw h1 h2 hs1 hs2
  induction first generalizing n second with
  | nil =>
    cases h1
    obtain ⟨rfl, rfl⟩ := Network.runSchedule_of_stuck hs1 h2
    exact ⟨rfl, rfl⟩
  | cons i rest ih =>
    obtain ⟨n', hi, hrest⟩ := Network.runSchedule_cons.1 h1
    obtain ⟨second', hsecond, hlen⟩ := Network.runSchedule_step_first hw hi h2 hs2
    obtain ⟨heq, hlen'⟩ := ih n' second' (Network.wired_globalStep hw hi) hrest hsecond
    exact ⟨heq, by rw [List.length_cons, hlen', hlen]⟩

end Sys2Proof.Machine
end

section
/-! What a new machine holds (R250, R251). -/

namespace Sys2Proof.Machine

/-- R250: the memory of a new machine is the image, continued by zeros. -/
theorem State.new_mem_read (config : Config) (image inputs : List Int) (a : Nat) :
    (State.new config image inputs).mem.read a = image.getD a 0 := by
  change (Memory.load [] 0 image).read a = image.getD a 0
  rw [Memory.read_load, Memory.read_nil, Nat.sub_zero, Nat.zero_add, ite_eq_left_iff]
  exact fun h => (List.getD_eq_default _ 0 (by omega)).symm

/-- Settles O46: the memory by `State.new_mem_read`, every other piece of state by the definition of `new`. -/
theorem newMachineHoldsTheImage : Obligations.NewMachineHoldsTheImage := by
  rintro config image inputs s rfl
  refine ⟨fun a x hx => ?_, fun a ha => ?_, rfl, rfl, rfl, rfl, rfl⟩
  · rw [State.new_mem_read, List.getD_eq_getElem?_getD, hx, Option.getD_some]
  · rw [State.new_mem_read, List.getD_eq_default _ _ ha]

end Sys2Proof.Machine
end
